-- ==== Sys2Proof/Word.lean ====
section
/-! DEFINITION. The word of the machine: a signed 64-bit integer (00_scope.md R5 `WORD`, 10_state.md R18). -/

namespace Sys2Proof

/-- One memory cell, one operand, one result, and the register `rel`: 64 bits, always read as a signed integer
through `BitVec.toInt` (R5, R7: no instruction sees part of a word). -/
abbrev Word := BitVec 64

/-- The least signed 64-bit value (R6, `Int64`). -/
def Word.minValue : Int := -9223372036854775808

/-- The greatest signed 64-bit value (R6, `Int64`). -/
def Word.maxValue : Int := 9223372036854775807

end Sys2Proof
end

