-- ==== Sys2Proof/Config.lean ====
section
/-! DEFINITION. The implementation parameters of 00_scope.md R5: what an instance of the hardware fixes for its whole life. -/

namespace Sys2Proof

/-- `UNUSED_MODE_DIGITS`: what a nonzero digit above the consumed mode digits does (R56). -/
inductive UnusedModeDigits where
  | fault
  | ignore
deriving DecidableEq, Repr

/-- `IMMEDIATE_DEST`: what mode 1 on a destination parameter does (R57). -/
inductive ImmediateDest where
  | fault
  | writeSlot
deriving DecidableEq, Repr

/-- `OUTPUT_CLOSED`: what OUT does when the host has dropped its receiving endpoint (R78). -/
inductive OutputClosed where
  | fault
  | discard
deriving DecidableEq, Repr

/-- The parameters of R5. `none` in a capacity or a depth means unbounded. -/
structure Config where
  /-- `MEM_CAPACITY`: the largest tape length, in words (R32). OPEN in the spec. -/
  memCapacity : Option Nat
  /-- `IN_DEPTH`: how many messages the inbound FIFO holds (R98). -/
  inDepth : Option Nat
  /-- `OUT_DEPTH`: how many messages the outbound FIFO holds (R98). -/
  outDepth : Option Nat
  unusedModeDigits : UnusedModeDigits
  immediateDest : ImmediateDest
  outputClosed : OutputClosed
deriving DecidableEq, Repr

/-- The defaults of R5. DESIGN CHOICE (log 1): `MEM_CAPACITY` is OPEN and has no default; unbounded is what
95_test_vectors.md takes, and what the source's tape is. -/
def Config.standard : Config where
  memCapacity := none
  inDepth := none
  outDepth := none
  unusedModeDigits := .fault
  immediateDest := .fault
  outputClosed := .fault

/-- FREE VALUE (log 4): the low 63 bits of `ptr` after an instruction at the word `p` whose next pointer is ADDR_MAX + 1, which
no signed 64-bit register holds (10_state.md R14, 40_machine_loop.md R70). Its sign bit is not free: the next fetch must raise
`IndexFault`. -/
opaque Config.pastEndPointer : Word → BitVec 63

end Sys2Proof
end

