-- ==== Sys2Proof/Machine/State.lean ====
section
/-! DEFINITION. The state of one machine instance (10_state.md R13 to R30) as plain data, the reasons a step of the model
could stop, and the state after reset. -/

namespace Sys2Proof.Machine

/-- A text message of a channel (10_state.md R19), as its characters in order. -/
abbrev Message := List Char

/-- One listed cell of the tape: a word address and the word there (20_memory.md R43, R44: memory has words, no bytes). -/
abbrev Cell := Nat × Word

/-- The tape (10_state.md R18): its length in words and the cells that do not hold 0, addresses strictly rising and
below `len` (`Memory.wf`). Every other address reads as 0. -/
structure Memory where
  cells : List Cell
  len : Nat
deriving DecidableEq, Repr

/-- The run status (10_state.md R16). -/
inductive Status where
  /-- The loop is live. -/
  | running
  /-- A step returned a next pointer equal to its starting pointer (R65). -/
  | halted
  /-- An IN found the inbound FIFO empty and its sending endpoint dropped (R77). -/
  | inputClosed
  /-- A step raised a fault (R89). -/
  | faulted
deriving DecidableEq, Repr

/-- The fault causes (60_exceptions.md R85). -/
inductive FaultCode where
  | badOpcode
  | badMode
  | immediateDestination
  | unusedModeDigits
  | indexFault
  | capacityFault
  | parseFault
  | overflowFault
  | outputClosed
deriving DecidableEq, Repr

/-- The info value of a fault: an exact integer (the instruction word, the address, the out-of-range result, the value)
or, for `ParseFault`, the message (R85, column info). -/
inductive FaultInfo where
  | value (v : Int)
  | message (m : Message)
deriving DecidableEq, Repr

/-- What `raise F(info)` carries (00_scope.md R9). -/
structure Raised where
  code : FaultCode
  info : FaultInfo
deriving DecidableEq, Repr

/-- The fault record (10_state.md R17): the code, `ptr` at the start of the faulting step, the info value. -/
structure FaultRecord where
  code : FaultCode
  ptr : Word
  info : FaultInfo
deriving DecidableEq, Repr

/-- The whole state of one machine instance with its two channels (R14 to R20), and the parameters it was built with. -/
structure State where
  /-- The instruction pointer (R14): a signed 64-bit register, negative values included (D24, D25). -/
  ptr : Word
  /-- The relative base (R15). -/
  rel : Word
  /-- The run status (R16). -/
  status : Status
  /-- The fault record, empty unless `status` is faulted (R17). -/
  fault : Option FaultRecord
  /-- The tape: `mem` and `len` of R18. -/
  mem : Memory
  /-- The inbound FIFO, head first (R19). -/
  inq : List Message
  /-- The host has dropped the inbound sending endpoint (R19). -/
  inClosed : Bool
  /-- The machine has dropped its inbound receiving endpoint (R19). -/
  inReaderGone : Bool
  /-- The outbound FIFO, head first (R20). -/
  outq : List Message
  /-- The machine has dropped its outbound sending endpoint (R20). -/
  outClosed : Bool
  /-- The host has dropped its outbound receiving endpoint (R20). -/
  outReaderGone : Bool
  /-- The implementation parameters of R5, fixed for the life of the machine. DESIGN CHOICE (log 1): the spec makes them
  arguments of the model (R5, R25), and the fixed types of `step` and `exec` leave State as the place to carry them. -/
  cfg : Config
deriving DecidableEq, Repr

/-- The reasons for which a step of this model would stop without a next state: there is none. Raised by no one; safe.
Every fault of the spec is TAKEN, as a next state whose status is faulted and whose record names it (60_exceptions.md
R89, R90; log 8). -/
inductive Fault where
deriving DecidableEq, Repr

/-- The reasons for which an instruction has no meaning in the model. -/
inductive Refusal where
  /-- Answered by an arm of `exec` whose instruction is not modelled yet, with the table's mnemonic; safe (nothing can be
  proved of such a step). No arm answers it in this model. -/
  | notModelled (mnemonic : String)
deriving DecidableEq, Repr

/-- The machine right after reset (10_state.md R27, 70_reset_and_hazards.md R111), spawned with the empty word list, which
R112 admits, and with no initial input: no program is invented (DESIGN CHOICE, log 7; parameters, log 1). -/
def State.reset : State where
  ptr := 0#64
  rel := 0
  status := .running
  fault := none
  mem := { cells := [], len := 0 }
  inq := []
  inClosed := false
  inReaderGone := false
  outq := []
  outClosed := false
  outReaderGone := false
  cfg := Config.standard

end Sys2Proof.Machine
end

