-- ==== Sys2Proof/Syntax.lean ====
section
/-! DEFINITION. The syntax of instructions: addressing modes, the opcode map of 30_encoding.md R51, and the transient
Instruction that `Decode` returns (R22, R53). -/

namespace Sys2Proof

/-- A parameter's addressing mode: digit 0, 1 or 2 (30_encoding.md R49, 20_memory.md R38 to R40). -/
inductive Mode where
  | positional
  | immediate
  | relative
deriving DecidableEq, Repr

/-- The operations of the opcode map (R51). -/
inductive Opcode where
  | add
  | mul
  | inp
  | out
  | jt
  | jf
  | lt
  | eq
  | arb
  | halt
deriving DecidableEq, Repr

/-- A decoded instruction: its operation and one mode for each parameter, parameter 1 first. The parameter words are
memory words that the step reads, and no part of the instruction (R52, R53: "Decode reads no memory"). One constructor
for each row of spec/opcode_table.json; `inp` is IN, whose name is a Lean keyword. -/
inductive Instr where
  | add (m1 m2 m3 : Mode)
  | mul (m1 m2 m3 : Mode)
  | inp (m1 : Mode)
  | out (m1 : Mode)
  | jt (m1 m2 : Mode)
  | jf (m1 m2 : Mode)
  | lt (m1 m2 m3 : Mode)
  | eq (m1 m2 m3 : Mode)
  | arb (m1 : Mode)
  | halt
deriving DecidableEq, Repr

/-- The operation of an instruction. -/
def Instr.opcode : Instr → Opcode
  | .add _ _ _ => .add
  | .mul _ _ _ => .mul
  | .inp _ => .inp
  | .out _ => .out
  | .jt _ _ => .jt
  | .jf _ _ => .jf
  | .lt _ _ _ => .lt
  | .eq _ _ _ => .eq
  | .arb _ => .arb
  | .halt => .halt

/-- The modes of an instruction, parameter 1 first. -/
def Instr.modes : Instr → List Mode
  | .add m1 m2 m3 => [m1, m2, m3]
  | .mul m1 m2 m3 => [m1, m2, m3]
  | .inp m1 => [m1]
  | .out m1 => [m1]
  | .jt m1 m2 => [m1, m2]
  | .jf m1 m2 => [m1, m2]
  | .lt m1 m2 m3 => [m1, m2, m3]
  | .eq m1 m2 m3 => [m1, m2, m3]
  | .arb m1 => [m1]
  | .halt => []

/-- The mode of the destination parameter, where the instruction has one: parameter 3 of ADD, MUL, LT and EQ, parameter
1 of IN (R51, R57). -/
def Instr.destMode : Instr → Option Mode
  | .add _ _ m3 => some m3
  | .mul _ _ m3 => some m3
  | .inp m1 => some m1
  | .out _ => none
  | .jt _ _ => none
  | .jf _ _ => none
  | .lt _ _ m3 => some m3
  | .eq _ _ m3 => some m3
  | .arb _ => none
  | .halt => none

/-- The decode faults, by name (60_exceptions.md R85, codes 1 to 4). -/
inductive DecodeFault where
  /-- The word is negative or its opcode is not in the opcode map (R54, R55). -/
  | badOpcode
  /-- A consumed mode digit is not 0, 1 or 2 (R41). -/
  | badMode
  /-- Mode 1 on a destination parameter, with `IMMEDIATE_DEST = fault` (R57). -/
  | immediateDestination
  /-- A nonzero digit above the consumed mode digits, with `UNUSED_MODE_DIGITS = fault` (R56). -/
  | unusedModeDigits
deriving DecidableEq, Repr

end Sys2Proof
end

