-- ==== Sys2Proof/Machine/Ops.lean ====
section
/-! DEFINITION. The operations every instruction shares: the memory controller of 20_memory.md (CheckAddr, Extend, MemRead,
MemWrite), taking a fault (60_exceptions.md R89, R90), the two graceful ends (R94), and the next-pointer rule that ends a
step (40_machine_loop.md R64, R65). -/

namespace Sys2Proof.Machine

/-- The type of a step's answer. -/
abbrev Result := Host.Outcome State Fault Refusal

/-! Fault codes (60_exceptions.md R85). -/

/-- The number of a fault code (R85, column code). -/
def FaultCode.number : FaultCode → Nat
  | .badOpcode => 1
  | .badMode => 2
  | .immediateDestination => 3
  | .unusedModeDigits => 4
  | .indexFault => 5
  | .capacityFault => 6
  | .parseFault => 7
  | .overflowFault => 8
  | .outputClosed => 9

/-- The fault code of a decode fault (R85, codes 1 to 4). -/
def decodeFaultCode : DecodeFault → FaultCode
  | .badOpcode => .badOpcode
  | .badMode => .badMode
  | .immediateDestination => .immediateDestination
  | .unusedModeDigits => .unusedModeDigits

/-- A decode fault of the word `w` records `w` (R85). -/
def decodeRaised (f : DecodeFault) (w : Word) : Raised :=
  { code := decodeFaultCode f, info := .value w.toInt }

/-! The tape as data. -/

/-- What an address with no listed cell reads as (10_state.md R18, R27: every cell that no one wrote holds 0). -/
def Memory.unlisted : Word := 0#64

/-- The word listed for an address, if any. -/
def Memory.lookup (a : Nat) : List Cell → Word
  | [] => Memory.unlisted
  | c :: cs => if c.1 = a then c.2 else Memory.lookup a cs

/-- `mem[a]` (R18): 0 at and above `len`. -/
def Memory.read (m : Memory) (a : Nat) : Word :=
  if a < m.len then Memory.lookup a m.cells else Memory.unlisted

/-- The tape with at least `n` words, the new ones 0 (20_memory.md R32, R33: "every newly created cell holds 0"). A cell
listed at or above the old length (no reachable tape has one) is dropped, so the zero fill holds of every tape. -/
def Memory.growTo (m : Memory) (n : Nat) : Memory :=
  if m.len < n then { cells := m.cells.filter (fun c => decide (c.1 < m.len)), len := n } else m

/-- Put a cell in its place among cells whose addresses rise. -/
def Memory.insertCell (a : Nat) (v : Word) : List Cell → List Cell
  | [] => [(a, v)]
  | c :: cs => if a < c.1 then (a, v) :: c :: cs else c :: Memory.insertCell a v cs

/-- Replace the cell at `a`; writing the unlisted value removes it. -/
def Memory.setCell (a : Nat) (v : Word) (cs : List Cell) : List Cell :=
  if v = Memory.unlisted then cs.filter (fun c => decide (c.1 ≠ a))
  else Memory.insertCell a v (cs.filter (fun c => decide (c.1 ≠ a)))

/-- Store a word, growing the tape first if need be (R35). -/
def Memory.write (m : Memory) (a : Nat) (v : Word) : Memory :=
  { cells := Memory.setCell a v (m.growTo (a + 1)).cells, len := (m.growTo (a + 1)).len }

/-- Store words at consecutive addresses. -/
def Memory.writeWords (m : Memory) (a : Nat) : List Word → Memory
  | [] => m
  | w :: ws => Memory.writeWords (m.write a w) (a + 1) ws

/-- Addresses strictly rise from `lo` on, and no listed cell holds the unlisted value. -/
def Memory.cellsWf (len : Nat) : Nat → List Cell → Bool
  | _, [] => true
  | lo, c :: cs =>
    decide (lo ≤ c.1) && decide (c.1 < len) && decide (c.2 ≠ Memory.unlisted) && Memory.cellsWf len (c.1 + 1) cs

/-- The canonical form of a tape: listed addresses strictly rise, lie below `len` (the invariant of R18), and hold no 0. -/
def Memory.wf (m : Memory) : Bool := Memory.cellsWf m.len 0 m.cells

/-- The whole tape, `mem[0..len-1]` (10_state.md R28). -/
def Memory.toWords (m : Memory) : List Word := (List.range m.len).map m.read

/-- The tape of a list of words, word k at address k (70_reset_and_hazards.md R111). -/
def Memory.ofWords (ws : List Word) : Memory :=
  Memory.writeWords { cells := [], len := 0 } 0 ws

/-! The memory controller (20_memory.md). -/

/-- `ADDR_MAX`, the largest address an access may name (R5, R31). -/
def addrMax : Int := 9223372036854775807

/-- `CheckAddr(a)` (R31), on the exact integer address. -/
def checkAddr (a : Int) : Except Raised Nat :=
  if 0 ≤ a ∧ a ≤ addrMax then .ok a.toNat else .error { code := .indexFault, info := .value a }

/-- Whether a tape of `n` words fits in `MEM_CAPACITY` (R32). -/
def fitsCapacity (c : Config) (n : Nat) : Bool :=
  match c.memCapacity with
  | none => true
  | some cap => decide (n ≤ cap)

/-- `Extend(a)` (R32). -/
def extend (c : Config) (m : Memory) (a : Nat) : Except Raised Memory :=
  if a < m.len then .ok m
  else if fitsCapacity c (a + 1) then .ok (m.growTo (a + 1))
  else .error { code := .capacityFault, info := .value (a : Int) }

/-- `MemRead(a, 1)` (R34): the word and the tape, which the read may have grown. -/
def memRead (c : Config) (m : Memory) (a : Int) : Except Raised (Word × Memory) := do
  let k ← checkAddr a
  let m' ← extend c m k
  return (m'.read k, m')

/-- `MemWrite(a, 1, v)` (R35). -/
def memWrite (c : Config) (m : Memory) (a : Int) (v : Word) : Except Raised Memory := do
  let k ← checkAddr a
  let m' ← extend c m k
  return m'.write k v

/-! The ends of a step. -/

/-- The word of an exact integer, when it lies in `Int64` (00_scope.md R6). -/
def wordOfInt? (r : Int) : Option Word :=
  if Word.minValue ≤ r ∧ r ≤ Word.maxValue then some (BitVec.ofInt 64 r) else none

/-- What `ptr` holds for the next pointer `next` of an instruction at `p` (10_state.md R14, 40_machine_loop.md R70): the pointer
itself, which lies in `Int64`, but for ADDR_MAX + 1 after an instruction whose last word stands at ADDR_MAX. The register
cannot hold that one, and the next fetch must raise `IndexFault`, which of the register's values just the negative ones do: it
holds some negative value, not said which (log 4). -/
def nextPointer (p : Word) (next : Int) : Word :=
  match wordOfInt? next with
  | some w => w
  | none => 1#1 ++ Config.pastEndPointer p

/-- The machine ends with status `st` and drops both of its channel endpoints (40_machine_loop.md R71, 60_exceptions.md
R90, R94). -/
def State.terminate (s : State) (st : Status) : State :=
  { s with status := st, outClosed := true, inReaderGone := true }

/-- TAKING A FAULT (60_exceptions.md R89, R90): nothing of the step is kept, `s` being the state before it; the record is
(code, ptr, info). -/
def State.takeFault (s : State) (f : Raised) : State :=
  { s.terminate .faulted with fault := some { code := f.code, ptr := s.ptr, info := f.info } }

/-- What the body of an instruction comes to, when it raises nothing. -/
inductive Effect where
  /-- The state with the step's writes, `ptr` not yet moved, and the next pointer the instruction returns. -/
  | done (t : State) (next : Int)
  /-- `hold`: the step has no effect and is attempted again later (40_machine_loop.md R67). -/
  | hold
  /-- IN found the end of input (42_io.md R77). -/
  | endOfInput
deriving DecidableEq, Repr

/-- The next-pointer rule (40_machine_loop.md R64, R65): a next pointer equal to the starting one halts, by HALT or by a
self-jump alike (R66). -/
def State.advance (t : State) (next : Int) : State :=
  if next = t.ptr.toInt then t.terminate .halted else { t with ptr := nextPointer t.ptr next }

/-- The end of a step that started in `s` (R64, R67, R72). A hold answers `s` itself: the model makes no move (log 6). -/
def commit (s : State) : Except Raised Effect → Result
  | .error f => .next (s.takeFault f)
  | .ok .hold => .next s
  | .ok .endOfInput => .next (s.terminate .inputClosed)
  | .ok (.done t next) => .next (t.advance next)

end Sys2Proof.Machine
end

