-- ==== Sys2Proof/Machine/Flags.lean ====
section
/-! DEFINITION. The machine has no flags (10_state.md R21). This file holds the computations that flags carry on other
machines: the range check of a result, the Boolean result of a compare, and the condition of a jump. -/

namespace Sys2Proof.Machine

/-- The range check of ADD, MUL and ARB: an exact result outside `Int64` raises `OverflowFault`, and never wraps or
saturates (41_arithmetic.md R75, R76, 45_relative_base.md R83). -/
def checkRange (r : Int) : Except Raised Word :=
  match wordOfInt? r with
  | some w => .ok w
  | none => .error { code := .overflowFault, info := .value r }

/-- The Boolean result of LT and EQ as a word, 1 or 0 (44_compare.md R81, R82). -/
def boolWord (b : Bool) : Word := if b then 1#64 else 0#64

/-- The exact sum of two words (R75). -/
def sumOf (x y : Word) : Int := x.toInt + y.toInt

/-- The exact product of two words (R76). -/
def productOf (x y : Word) : Int := x.toInt * y.toInt

/-- The signed comparison of LT (R81). -/
def lessThan (x y : Word) : Bool := decide (x.toInt < y.toInt)

/-- The comparison of EQ (R82). -/
def equalTo (x y : Word) : Bool := decide (x.toInt = y.toInt)

/-- The condition of JT (R79): any nonzero word. -/
def conditionTrue (x : Word) : Bool := decide (x.toInt ≠ 0)

/-- The condition of JF (R80): only zero. -/
def conditionFalse (x : Word) : Bool := decide (x.toInt = 0)

end Sys2Proof.Machine
end

