-- ==== Sys2Proof/Machine/Operands.lean ====
section
/-! DEFINITION. The addressing resolver (20_memory.md R37 to R42): the effective address of a parameter in each mode, and
the shapes of operand resolution that instructions share. -/

namespace Sys2Proof.Machine

/-- The address of parameter `i`'s slot (R37), an exact sum. -/
def slotAddress (s : State) (i : Nat) : Int := s.ptr.toInt + (i : Int)

/-- The effective address of parameter `i` in mode `m`, read from the tape `mem` (R38 positional, R39 immediate, R40
relative), before any check. -/
def addressIn (s : State) (mem : Memory) (i : Nat) : Mode → Int
  | .positional => (mem.read (slotAddress s i).toNat).toInt
  | .immediate => slotAddress s i
  | .relative => s.rel.toInt + (mem.read (slotAddress s i).toNat).toInt

/-- The effective address of parameter `i` in mode `m` of the instruction at `ptr`, in the state before the step. -/
def effectiveAddress (s : State) (i : Nat) (m : Mode) : Int := addressIn s s.mem i m

/-- The value of source parameter `i` in mode `m`: the word at its effective address (R42), in the state before the step. -/
def operandValue (s : State) (i : Nat) (m : Mode) : Word := s.mem.read (effectiveAddress s i m).toNat

/-- `Resolve(i, m)` (R37): check and extend to the slot, form the effective address, check and extend to it. `mem` is the
tape as the earlier calls of the step have grown it. -/
def resolve (s : State) (mem : Memory) (i : Nat) (m : Mode) : Except Raised (Int × Memory) := do
  let k ← checkAddr (slotAddress s i)
  let mem1 ← extend s.cfg mem k
  let ea := addressIn s mem1 i m
  let a ← checkAddr ea
  let mem2 ← extend s.cfg mem1 a
  return (ea, mem2)

/-- Resolve one parameter, then read it as a source (R42): the value and the tape. -/
def oneSource (s : State) (m1 : Mode) : Except Raised (Word × Memory) := do
  let (a, mem1) ← resolve s s.mem 1 m1
  memRead s.cfg mem1 a

/-- Resolve two source parameters in order, then read them in order (40_machine_loop.md R68). -/
def twoSources (s : State) (m1 m2 : Mode) : Except Raised (Word × Word × Memory) := do
  let (a, mem1) ← resolve s s.mem 1 m1
  let (b, mem2) ← resolve s mem1 2 m2
  let (x, mem3) ← memRead s.cfg mem2 a
  let (y, mem4) ← memRead s.cfg mem3 b
  return (x, y, mem4)

/-- Resolve two source parameters and a destination in order, then read the sources in order (R68): the two values, the
destination's effective address, and the tape. -/
def twoSourcesAndDest (s : State) (m1 m2 m3 : Mode) : Except Raised (Word × Word × Int × Memory) := do
  let (a, mem1) ← resolve s s.mem 1 m1
  let (b, mem2) ← resolve s mem1 2 m2
  let (c, mem3) ← resolve s mem2 3 m3
  let (x, mem4) ← memRead s.cfg mem3 a
  let (y, mem5) ← memRead s.cfg mem4 b
  return (x, y, c, mem5)

/-- An instruction that writes `f x y` to parameter 3 (ADD, MUL, LT, EQ): all reads, then the computation, then the one
write, then `p + 4` (R68, R69, R70). -/
def storeOfTwo (f : Word → Word → Except Raised Word) (m1 m2 m3 : Mode) (s : State) : Except Raised Effect := do
  let (x, y, c, mem1) ← twoSourcesAndDest s m1 m2 m3
  let r ← f x y
  let mem2 ← memWrite s.cfg mem1 c r
  return .done { s with mem := mem2 } (s.ptr.toInt + 4)

/-- A conditional jump (JT, JF): both operands are always resolved and read; the target is absolute; not taken is `p + 3`
(43_jumps.md R79, R80, R68). -/
def jumpOn (taken : Word → Bool) (m1 m2 : Mode) (s : State) : Except Raised Effect := do
  let (x, t, mem1) ← twoSources s m1 m2
  return .done { s with mem := mem1 } (if taken x then t.toInt else s.ptr.toInt + 3)

end Sys2Proof.Machine
end

