-- ==== Sys2Proof/Machine/Arithmetic.lean ====
section
/-! DEFINITION. ADD and MUL (41_arithmetic.md). -/

namespace Sys2Proof.Machine

/-- ADD (R75): `mem[c] = a + b`, the exact sum, `OverflowFault` outside `Int64`. -/
def execAdd (m1 m2 m3 : Mode) (s : State) : Result :=
  commit s (storeOfTwo (fun x y => checkRange (sumOf x y)) m1 m2 m3 s)

/-- MUL (R76): `mem[c] = a * b`, the exact product, `OverflowFault` outside `Int64`. -/
def execMul (m1 m2 m3 : Mode) (s : State) : Result :=
  commit s (storeOfTwo (fun x y => checkRange (productOf x y)) m1 m2 m3 s)

end Sys2Proof.Machine
end

