-- ==== Sys2Proof/Machine/Compare.lean ====
section
/-! DEFINITION. LT and EQ (44_compare.md). -/

namespace Sys2Proof.Machine

/-- LT (R81): `mem[c] = 1` if `a < b` as signed values, else 0. -/
def execLt (m1 m2 m3 : Mode) (s : State) : Result :=
  commit s (storeOfTwo (fun x y => .ok (boolWord (lessThan x y))) m1 m2 m3 s)

/-- EQ (R82): `mem[c] = 1` if `a = b`, else 0. -/
def execEq (m1 m2 m3 : Mode) (s : State) : Result :=
  commit s (storeOfTwo (fun x y => .ok (boolWord (equalTo x y))) m1 m2 m3 s)

end Sys2Proof.Machine
end

