-- ==== Sys2Proof/Machine/Halt.lean ====
section
/-! DEFINITION. HALT (46_halt.md). -/

namespace Sys2Proof.Machine

/-- HALT (R84): no parameter and no write; the next pointer is the starting one, so the machine halts (R65). -/
def execHalt (s : State) : Result := commit s (.ok (.done s s.ptr.toInt))

end Sys2Proof.Machine
end

