-- ==== Sys2Proof/Machine/Text.lean ====
section
/-! DEFINITION. The text of messages: `ParseInt` (60_exceptions.md R100) and `Dec` (R102). -/

namespace Sys2Proof.Machine

/-- The value of a decimal digit character, `0` to `9` and no other. -/
def digitValue (ch : Char) : Option Nat :=
  if 48 ≤ ch.toNat ∧ ch.toNat ≤ 57 then some (ch.toNat - 48) else none

/-- Read digits after the value `acc`; every character must be a digit. -/
def parseDigits (acc : Nat) : Message → Option Nat
  | [] => some acc
  | ch :: rest =>
    match digitValue ch with
    | some d => parseDigits (acc * 10 + d) rest
    | none => none

/-- One digit or more. -/
def parseNat : Message → Option Nat
  | [] => none
  | ch :: rest => parseDigits 0 (ch :: rest)

/-- An optional sign, then one digit or more: the grammar `[+-]?[0-9]+` of R100, as an exact integer. -/
def parseSigned : Message → Option Int
  | [] => none
  | ch :: rest =>
    if ch = '-' then (parseNat rest).map (fun n : Nat => -(n : Int))
    else if ch = '+' then (parseNat rest).map (fun n : Nat => (n : Int))
    else (parseNat (ch :: rest)).map (fun n : Nat => (n : Int))

/-- `ParseInt(s)` without its fault: the grammar and the `Int64` range (R100). -/
def parseInt? (m : Message) : Option Word :=
  match parseSigned m with
  | some v => wordOfInt? v
  | none => none

/-- `ParseInt(s)` (R100): any other string raises `ParseFault(s)`. -/
def parseInt (m : Message) : Except Raised Word :=
  match parseInt? m with
  | some w => .ok w
  | none => .error { code := .parseFault, info := .message m }

/-- The character of a decimal digit. -/
def digitChar (d : Nat) : Char := Char.ofNat (48 + d)

/-- The decimal digits of `n` before `acc`, the most significant first, with no leading zero; at most `fuel` digits. -/
def decDigits : Nat → Nat → Message → Message
  | 0, _, acc => acc
  | fuel + 1, n, acc =>
    if n / 10 = 0 then digitChar (n % 10) :: acc else decDigits fuel (n / 10) (digitChar (n % 10) :: acc)

/-- The decimal text of a magnitude. No magnitude of a word has more than 19 digits. -/
def decNat (n : Nat) : Message := decDigits 20 n []

/-- `Dec(v)`, the canonical decimal text of a word (R102). -/
def dec (v : Word) : Message :=
  if v.toInt < 0 then '-' :: decNat v.toInt.natAbs else decNat v.toInt.natAbs

end Sys2Proof.Machine
end

