-- ==== Sys2Proof/Machine/Channels.lean ====
section
/-! DEFINITION. The core's side of the two channels: `Receive` (60_exceptions.md R99) and `Send` (R101), with the depths of
R98. -/

namespace Sys2Proof.Machine

/-- What `Receive` answers (R99). -/
inductive Received where
  /-- The head of the inbound FIFO, and the rest of it. -/
  | message (m : Message) (rest : List Message)
  | endOfInput
  | hold
deriving DecidableEq, Repr

/-- `Receive()` (R99): queued messages come before end-of-input. -/
def receive (s : State) : Received :=
  match s.inq with
  | m :: rest => .message m rest
  | [] => if s.inClosed then .endOfInput else .hold

/-- Whether a FIFO of a given depth is full (R98); an unbounded one never is. -/
def isFull (depth : Option Nat) (q : List Message) : Bool :=
  match depth with
  | none => false
  | some d => decide (d ≤ q.length)

/-- `Send(s)` (R101): append to the tail of the outbound FIFO. -/
def State.send (s : State) (m : Message) : State := { s with outq := s.outq ++ [m] }

end Sys2Proof.Machine
end

