-- ==== Sys2Proof/Machine/InOut.lean ====
section
/-! DEFINITION. IN and OUT (42_io.md). -/

namespace Sys2Proof.Machine

/-- The body of IN (R77): resolve the destination, then `Receive`; a message is parsed, then consumed and stored. -/
def inBody (m1 : Mode) (s : State) : Except Raised Effect := do
  let (a, mem1) ← resolve s s.mem 1 m1
  match receive s with
  | .hold => return .hold
  | .endOfInput => return .endOfInput
  | .message msg rest =>
    let v ← parseInt msg
    let mem2 ← memWrite s.cfg mem1 a v
    return .done { s with mem := mem2, inq := rest } (s.ptr.toInt + 2)

/-- IN (R77). -/
def execIn (m1 : Mode) (s : State) : Result := commit s (inBody m1 s)

/-- The body of OUT (R78): read the source, then follow `OUTPUT_CLOSED` if the host's receiver is gone, else `Send`. With
a finite `OUT_DEPTH` a full FIFO holds the core (R98; log 9). -/
def outBody (m1 : Mode) (s : State) : Except Raised Effect := do
  let (v, mem1) ← oneSource s m1
  if s.outReaderGone then
    match s.cfg.outputClosed with
    | .fault => .error { code := .outputClosed, info := .value v.toInt }
    | .discard => return .done { s with mem := mem1 } (s.ptr.toInt + 2)
  else if isFull s.cfg.outDepth s.outq then return .hold
  else return .done ({ s with mem := mem1 }.send (dec v)) (s.ptr.toInt + 2)

/-- OUT (R78). -/
def execOut (m1 : Mode) (s : State) : Result := commit s (outBody m1 s)

end Sys2Proof.Machine
end

