-- ==== Sys2Proof/Machine/Jumps.lean ====
section
/-! DEFINITION. JT and JF (43_jumps.md). -/

namespace Sys2Proof.Machine

/-- JT (R79): jump if the condition word is not 0. -/
def execJt (m1 m2 : Mode) (s : State) : Result := commit s (jumpOn conditionTrue m1 m2 s)

/-- JF (R80): jump if the condition word is 0. -/
def execJf (m1 m2 : Mode) (s : State) : Result := commit s (jumpOn conditionFalse m1 m2 s)

end Sys2Proof.Machine
end

