-- ==== Sys2Proof/Machine/RelativeBase.lean ====
section
/-! DEFINITION. ARB (45_relative_base.md). -/

namespace Sys2Proof.Machine

/-- The body of ARB (R83): the operand is resolved with the old `rel`; the new base is the exact sum, `OverflowFault`
outside `Int64`. -/
def arbBody (m1 : Mode) (s : State) : Except Raised Effect := do
  let (x, mem1) ← oneSource s m1
  let r ← checkRange (sumOf s.rel x)
  return .done { s with mem := mem1, rel := r } (s.ptr.toInt + 2)

/-- ARB (R83). -/
def execArb (m1 : Mode) (s : State) : Result := commit s (arbBody m1 s)

end Sys2Proof.Machine
end

