-- ==== Sys2Proof/WellFormed.lean ====
section
/-! DEFINITION. Which instructions are well formed: the one check that is not a matter of types, mode 1 on a destination
parameter (30_encoding.md R57). -/

namespace Sys2Proof

/-- A destination parameter may be in mode 0 or 2, and in mode 1 only under `IMMEDIATE_DEST = write_slot` (R57). -/
def Mode.destOk (c : Config) : Mode → Bool
  | .positional => true
  | .immediate => c.immediateDest == .writeSlot
  | .relative => true

/-- An instruction is well formed for the parameters `c` when its destination mode, if it has one, is allowed. -/
def Instr.wellFormed (c : Config) (i : Instr) : Bool :=
  match i.destMode with
  | some m => m.destOk c
  | none => true

end Sys2Proof
end

