-- ==== Sys2Proof/Decode.lean ====
section
/-! DEFINITION. The decoder of 30_encoding.md R53, total on every word and rejecting by name, and the canonical encoder of
R59. The fields of an instruction word are decimal digits (R49). -/

namespace Sys2Proof

/-! The opcode map (R51). -/

/-- The two decimal digits that select the operation (R51, column op). -/
def Opcode.number : Opcode → Nat
  | .add => 1
  | .mul => 2
  | .inp => 3
  | .out => 4
  | .jt => 5
  | .jf => 6
  | .lt => 7
  | .eq => 8
  | .arb => 9
  | .halt => 99

/-- The number of parameters (R51, column n; `NPARAMS` of R53). -/
def Opcode.nParams : Opcode → Nat
  | .add => 3
  | .mul => 3
  | .inp => 1
  | .out => 1
  | .jt => 2
  | .jf => 2
  | .lt => 3
  | .eq => 3
  | .arb => 1
  | .halt => 0

/-- The destination parameter (R51; `DEST` of R53). -/
def Opcode.dest : Opcode → Option Nat
  | .add => some 3
  | .mul => some 3
  | .inp => some 1
  | .out => none
  | .jt => none
  | .jf => none
  | .lt => some 3
  | .eq => some 3
  | .arb => none
  | .halt => none

/-- Every row of the opcode map. -/
def Opcode.all : List Opcode :=
  [.add, .mul, .inp, .out, .jt, .jf, .lt, .eq, .arb, .halt]

/-- The operation of an opcode value; `none` for a value that is not in the map (R55). -/
def Opcode.ofNumber? (n : Nat) : Option Opcode :=
  Opcode.all.find? (fun op => op.number == n)

/-- The length in words: the instruction word and its parameters (R48). -/
def Opcode.length (op : Opcode) : Nat := 1 + op.nParams

/-! The mode digits (R49). -/

/-- Decimal digit `k` of `n`, the least significant being digit 0 (R6). -/
def digit (n k : Nat) : Nat := n / 10 ^ k % 10

/-- The digit of a mode. -/
def Mode.toDigit : Mode → Nat
  | .positional => 0
  | .immediate => 1
  | .relative => 2

/-- The mode of a digit; `none` for a digit that names no mode (R41). -/
def Mode.ofDigit? (d : Nat) : Option Mode :=
  if d = 0 then some .positional
  else if d = 1 then some .immediate
  else if d = 2 then some .relative
  else none

/-- The mode of source parameter `i` in the mode field `M` (R49, R53). -/
def decodeSource (M i : Nat) : Except DecodeFault Mode :=
  match Mode.ofDigit? (digit M (i - 1)) with
  | some m => .ok m
  | none => .error .badMode

/-- The mode of destination parameter `i`: the checks of R53 in their order, `BadMode` and then `ImmediateDestination`. -/
def decodeDest (c : Config) (M i : Nat) : Except DecodeFault Mode :=
  match Mode.ofDigit? (digit M (i - 1)) with
  | some m => if m.destOk c then .ok m else .error .immediateDestination
  | none => .error .badMode

/-- The last check of R53: digits above the `n` consumed ones (R56). -/
def checkUnused (c : Config) (M n : Nat) : Except DecodeFault Unit :=
  if c.unusedModeDigits = .fault ∧ M / 10 ^ n ≠ 0 then .error .unusedModeDigits else .ok ()

/-- Three parameters, the third a destination. -/
def decodeThree (c : Config) (M : Nat) (mk : Mode → Mode → Mode → Instr) : Except DecodeFault Instr := do
  let m1 ← decodeSource M 1
  let m2 ← decodeSource M 2
  let m3 ← decodeDest c M 3
  checkUnused c M 3
  return mk m1 m2 m3

/-- Two source parameters. -/
def decodeTwo (c : Config) (M : Nat) (mk : Mode → Mode → Instr) : Except DecodeFault Instr := do
  let m1 ← decodeSource M 1
  let m2 ← decodeSource M 2
  checkUnused c M 2
  return mk m1 m2

/-- One source parameter. -/
def decodeOne (c : Config) (M : Nat) (mk : Mode → Instr) : Except DecodeFault Instr := do
  let m1 ← decodeSource M 1
  checkUnused c M 1
  return mk m1

/-- One destination parameter. -/
def decodeOneDest (c : Config) (M : Nat) (mk : Mode → Instr) : Except DecodeFault Instr := do
  let m1 ← decodeDest c M 1
  checkUnused c M 1
  return mk m1

/-- The mode checks of R53 for a known operation, on the mode field `M = w div 100`. -/
def decodeModes (c : Config) (op : Opcode) (M : Nat) : Except DecodeFault Instr :=
  match op with
  | .add => decodeThree c M .add
  | .mul => decodeThree c M .mul
  | .inp => decodeOneDest c M .inp
  | .out => decodeOne c M .out
  | .jt => decodeTwo c M .jt
  | .jf => decodeTwo c M .jf
  | .lt => decodeThree c M .lt
  | .eq => decodeThree c M .eq
  | .arb => decodeOne c M .arb
  | .halt => do checkUnused c M 0; return .halt

/-- `Decode` on a non-negative word value: opcode `w mod 100`, mode field `w div 100` (R49, R53). -/
def decodeNumber (c : Config) (n : Nat) : Except DecodeFault Instr :=
  match Opcode.ofNumber? (n % 100) with
  | some op => decodeModes c op (n / 100)
  | none => .error .badOpcode

/-- `Decode(w)` (R53): a function of the word and of the parameters alone (R58). A negative word is `BadOpcode` (R54). -/
def decode (c : Config) (w : Word) : Except DecodeFault Instr :=
  if w.toInt < 0 then .error .badOpcode else decodeNumber c w.toInt.toNat

/-! The encoder. -/

/-- The mode field of a list of modes, parameter 1 least significant (R59). -/
def encodeModes : List Mode → Nat
  | [] => 0
  | m :: ms => m.toDigit + 10 * encodeModes ms

/-- The value of the canonical instruction word: `op + 100*m1 + 1000*m2 + 10000*m3` (R59). -/
def encodeNumber (i : Instr) : Nat := i.opcode.number + 100 * encodeModes i.modes

/-- The canonical instruction word (R59). -/
def encode (i : Instr) : Word := BitVec.ofNat 64 (encodeNumber i)

/-- The words of an instruction with its parameter words, in the order they stand in memory (R48). -/
def encodeWith (i : Instr) (params : List Word) : List Word := encode i :: params

/-- What the decoder reads from an instruction whose bits are `w`, bit 0 the least significant bit of the instruction
word: the first word of the hardware is the whole signed 64-bit instruction word, and the parameter words above it take
no part in decoding (R53, R62). Under the default parameters of R5. -/
def decodeTableWord (nbits w : Nat) : Option Instr :=
  match decode Config.standard (BitVec.ofNat 64 (w % 2 ^ nbits)) with
  | .ok i => some i
  | .error _ => none

end Sys2Proof
end

