-- ==== Sys2Proof/Machine/Fetch.lean ====
section
/-! DEFINITION. Fetch and decode (20_memory.md R36, 30_encoding.md R53), and placing an instruction where the step fetches
it. -/

namespace Sys2Proof.Machine

/-- `Fetch()`, then `Decode(w)` (R36, R53, in the order of 40_machine_loop.md R68). The tape the fetch grew is not
answered: a fetch grows the tape only at `ptr ≥ len`, where the word is 0 and does not decode, and a fault discards the
growth (R36, 60_exceptions.md R89). -/
def fetchInstr (s : State) : Except Raised Instr := do
  let (w, _) ← memRead s.cfg s.mem s.ptr.toInt
  match decode s.cfg w with
  | .ok i => return i
  | .error f => .error (decodeRaised f w)

/-- The first `k` words of a bit string whose bit 0 is the least significant bit of the first word. -/
def wordsOfBits : Nat → Nat → List Word
  | 0, _ => []
  | k + 1, b => BitVec.ofNat 64 b :: wordsOfBits k (b / 2 ^ 64)

/-- The state with the four words of the longest instruction (R48) placed at `ptr`, from the `nbits` low bits of `w`. -/
def placeAtPtr (s : State) (nbits w : Nat) : State :=
  { s with mem := s.mem.writeWords s.ptr.toInt.toNat (wordsOfBits 4 (w % 2 ^ nbits)) }

/-- One step of a running machine, given what it fetched: a fetch or decode fault is taken (R89), an instruction is run. -/
def runFetched (run : Instr → Result) (s : State) : Except Raised Instr → Result
  | .error f => .next (s.takeFault f)
  | .ok i => run i

end Sys2Proof.Machine
end

