-- ==== Sys2Proof/Machine/Step.lean ====
section
/-! DEFINITION. One step of the core (40_machine_loop.md R64). -/

namespace Sys2Proof.Machine

/-- `Step()` (R64). Once the machine has ended it has no further step, and nothing of it changes again (R71): the model
answers the same state (DESIGN CHOICE, log 5). -/
def step (s : State) : Host.Outcome State Fault Refusal :=
  match s.status with
  | .running => runFetched (fun i => exec i s) s (fetchInstr s)
  | .halted => .next s
  | .inputClosed => .next s
  | .faulted => .next s

/-- The state with an instruction placed where the step fetches next, its operand words 0 above `nbits` bits. It stands
for the load of a program image at spawn (70_reset_and_hazards.md R111; log 7). For a running state whose `ptr` is an
address, as `State.reset` is. -/
def State.withFetchWord (s : State) (nbits w : Nat) : State := placeAtPtr s nbits w

end Sys2Proof.Machine
end

