-- ==== Sys2Proof/Machine/Assembler.lean ====
section
/-! DEFINITION. The assembler notation of 30_encoding.md R60, as data: the words a program in that notation stands for. -/

namespace Sys2Proof.Machine

/-- `value`: a signed decimal integer, or a label, which stands for its address (R60). -/
inductive AsmValue where
  | number (v : Int)
  | label (name : List Char)
deriving DecidableEq, Repr

/-- `operand` (R60): `[value]`, `#value`, `[rel + value]`, `[rel - value]`; `[rel]` is `[rel + 0]`. -/
inductive AsmOperand where
  | positional (v : AsmValue)
  | immediate (v : AsmValue)
  | relPlus (v : AsmValue)
  | relMinus (v : AsmValue)
deriving DecidableEq, Repr

/-- What a line holds: an instruction or raw words. -/
inductive AsmItem where
  | instr (op : Opcode) (operands : List AsmOperand)
  | word (values : List AsmValue)
deriving DecidableEq, Repr

/-- `line`: an optional label and an item. -/
structure AsmLine where
  label : Option (List Char)
  item : AsmItem
deriving DecidableEq, Repr

/-- How many words an item takes. -/
def AsmItem.size : AsmItem → Nat
  | .instr _ operands => 1 + operands.length
  | .word values => values.length

/-- The address of every label, in program order from address `start`. -/
def labelTable (start : Nat) : List AsmLine → List (List Char × Nat)
  | [] => []
  | l :: rest =>
    match l.label with
    | some name => (name, start) :: labelTable (start + l.item.size) rest
    | none => labelTable (start + l.item.size) rest

/-- The address of a label: its first definition. -/
def findLabel (name : List Char) : List (List Char × Nat) → Option Nat
  | [] => none
  | e :: rest => if e.1 = name then some e.2 else findLabel name rest

/-- The integer of a value. -/
def AsmValue.eval (table : List (List Char × Nat)) : AsmValue → Option Int
  | .number v => some v
  | .label name => (findLabel name table).map (fun a : Nat => (a : Int))

/-- The mode an operand is written in. -/
def AsmOperand.mode : AsmOperand → Mode
  | .positional _ => .positional
  | .immediate _ => .immediate
  | .relPlus _ => .relative
  | .relMinus _ => .relative

/-- The parameter word of an operand. -/
def AsmOperand.param (table : List (List Char × Nat)) : AsmOperand → Option Word
  | .positional v => (v.eval table).bind wordOfInt?
  | .immediate v => (v.eval table).bind wordOfInt?
  | .relPlus v => (v.eval table).bind wordOfInt?
  | .relMinus v => (v.eval table).bind (fun n => wordOfInt? (-n))

/-- All of a list of optional words, or nothing. -/
def allWords : List (Option Word) → Option (List Word)
  | [] => some []
  | some w :: rest => (allWords rest).map (fun ws => w :: ws)
  | none :: _ => none

/-- The words of an item: the canonical instruction word (R59), then the parameter words in order; the count of operands
must be the instruction's (R51, R60). -/
def AsmItem.words (table : List (List Char × Nat)) : AsmItem → Option (List Word)
  | .instr op operands =>
    if operands.length = op.nParams then
      (allWords (operands.map (fun o => o.param table))).map
        (fun ps => BitVec.ofNat 64 (op.number + 100 * encodeModes (operands.map AsmOperand.mode)) :: ps)
    else none
  | .word values => allWords (values.map (fun v => (v.eval table).bind wordOfInt?))

/-- The words of lines under a label table. -/
def assembleLines (table : List (List Char × Nat)) : List AsmLine → Option (List Word)
  | [] => some []
  | l :: rest =>
    match l.item.words table, assembleLines table rest with
    | some ws, some more => some (ws ++ more)
    | _, _ => none

/-- The words of a program in the notation of R60; `none` for one that does not follow it. -/
def assemble (program : List AsmLine) : Option (List Word) := assembleLines (labelTable 0 program) program

end Sys2Proof.Machine
end

