-- ==== Sys2Proof/Machine/HostPort.lean ====
section
/-! DEFINITION. The host's side of the ports of 10_state.md R26: push and close, pop and drop, join, and the memory readout
(60_exceptions.md R96, R103, R104; R28, R29). Each is one atomic transaction between two core steps (R63). -/

namespace Sys2Proof.Machine

/-- The host's moves on a running or ended machine (R104; spawn stands in Machine/Spawn.lean). -/
inductive HostOp where
  | push (m : Message)
  | close
  | pop
  | drop
  | join
  | readout
deriving DecidableEq, Repr

/-- What the host gets back (R104). -/
inductive HostAnswer where
  /-- The move is made; the host gets nothing. -/
  | done
  /-- `pop` took this message. -/
  | message (m : Message)
  /-- `pop` on an empty FIFO whose sender is gone (R103). -/
  | endOfOutput
  /-- The host waits: the move is not made now (R29, R98, R103). -/
  | held
  /-- `join` answers Ok (R29). -/
  | joinOk
  /-- `join` answers Failed (R29). -/
  | joinFailed
  /-- The readout: `len` and `mem[0..len-1]` (R28). -/
  | contents (len : Nat) (words : List Word)
  /-- The port answers nothing, now and later (R28: a faulted machine is never read out). -/
  | nothing
  /-- No move of the host: a push or close after closing, a pop after dropping, a readout of a running machine (R96, R103,
  R105). -/
  | notAMove
deriving DecidableEq, Repr

/-- `push(s)` (R96): after the machine has ended the message is discarded; a full FIFO of finite depth holds the host
(R98; log 9). -/
def hostPush (s : State) (m : Message) : HostAnswer × State :=
  if s.inClosed then (.notAMove, s)
  else if s.inReaderGone then (.done, s)
  else if isFull s.cfg.inDepth s.inq then (.held, s)
  else (.done, { s with inq := s.inq ++ [m] })

/-- `close()` (R96): "a second close does nothing". -/
def hostClose (s : State) : HostAnswer × State := (.done, { s with inClosed := true })

/-- `pop()` (R103): queued messages come before end-of-output. -/
def hostPop (s : State) : HostAnswer × State :=
  if s.outReaderGone then (.notAMove, s)
  else
    match s.outq with
    | m :: rest => (.message m, { s with outq := rest })
    | [] => if s.outClosed then (.endOfOutput, s) else (.held, s)

/-- `drop()` (R103). -/
def hostDrop (s : State) : HostAnswer × State := (.done, { s with outReaderGone := true })

/-- `join()` (R29). -/
def joinAnswer : Status → HostAnswer
  | .running => .held
  | .halted => .joinOk
  | .inputClosed => .joinOk
  | .faulted => .joinFailed

/-- `readout()` (R28): after a graceful end only. -/
def readoutAnswer (s : State) : HostAnswer :=
  match s.status with
  | .running => .notAMove
  | .halted => .contents s.mem.len s.mem.toWords
  | .inputClosed => .contents s.mem.len s.mem.toWords
  | .faulted => .nothing

/-- One host move: the answer and the state after it. -/
def hostMove (op : HostOp) (s : State) : HostAnswer × State :=
  match op with
  | .push m => hostPush s m
  | .close => hostClose s
  | .pop => hostPop s
  | .drop => hostDrop s
  | .join => (joinAnswer s.status, s)
  | .readout => (readoutAnswer s, s)

/-- What the run of one instance has delivered, once it has ended (70_reset_and_hazards.md R121). -/
structure Delivered where
  status : Status
  /-- The messages the machine sent, in order: those the host has taken, then those still queued. -/
  outputs : List Message
  /-- The final `len` and memory, after a graceful end only. -/
  memory : Option (Nat × List Word)
  /-- The fault record, after a fault only. -/
  fault : Option FaultRecord
deriving DecidableEq, Repr

/-- The result of a run (R121), given the messages the host has taken so far; `none` while the run has not ended. -/
def delivered (taken : List Message) (s : State) : Option Delivered :=
  match s.status with
  | .running => none
  | .halted => some { status := .halted, outputs := taken ++ s.outq, memory := some (s.mem.len, s.mem.toWords), fault := none }
  | .inputClosed =>
    some { status := .inputClosed, outputs := taken ++ s.outq, memory := some (s.mem.len, s.mem.toWords), fault := none }
  | .faulted => some { status := .faulted, outputs := taken ++ s.outq, memory := none, fault := s.fault }

end Sys2Proof.Machine
end

