-- ==== Sys2Proof/Machine/Spawn.lean ====
section
/-! DEFINITION. Reset, which is spawn (70_reset_and_hazards.md R111 to R114): the program image and the initial input. -/

namespace Sys2Proof.Machine

/-- The state that spawn leaves for an image given as words (10_state.md R27, R111), with the initial input pushed as
`Dec(v)` before any host push (R113). R111 checks neither MEM_CAPACITY nor a depth here (logs 9 and 10). -/
def spawnWords (c : Config) (words : List Word) (initial : Option Word) : State where
  ptr := 0#64
  rel := 0
  status := .running
  fault := none
  mem := Memory.ofWords words
  inq := match initial with
    | some v => [dec v]
    | none => []
  inClosed := false
  inReaderGone := false
  outq := []
  outClosed := false
  outReaderGone := false
  cfg := c

/-- A character that R112 trims from the end of an image: space, tab, carriage return, line feed. -/
def isTrailingBlank (ch : Char) : Bool :=
  ch == ' ' || ch == '\t' || ch == '\r' || ch == '\n'

/-- Remove trailing blanks (R112, step 1). -/
def trimEnd : Message → Message
  | [] => []
  | ch :: rest =>
    match trimEnd rest with
    | [] => if isTrailingBlank ch then [] else [ch]
    | r :: rs => ch :: r :: rs

/-- Split at every comma (R112, step 2): always one piece or more. -/
def splitCommas : Message → List Message
  | [] => [[]]
  | ch :: rest =>
    if ch = ',' then [] :: splitCommas rest
    else
      match splitCommas rest with
      | [] => [[ch]]
      | piece :: pieces => (ch :: piece) :: pieces

/-- Parse every piece (R112, step 3); `none` if any fails. -/
def parsePieces : List Message → Option (List Word)
  | [] => some []
  | piece :: pieces =>
    match parseInt? piece, parsePieces pieces with
    | some w, some ws => some (w :: ws)
    | _, _ => none

/-- `LoadImage(text)` (R112). -/
def loadImage (text : Message) : Option (List Word) := parsePieces (splitCommas (trimEnd text))

/-- `spawn(image, initial)` (R111): `none` when the image does not parse, and then no machine is created. -/
def spawn (c : Config) (image : Message) (initial : Option Word) : Option State :=
  match loadImage image with
  | some words => some (spawnWords c words initial)
  | none => none

end Sys2Proof.Machine
end

