-- ==== Sys2Proof/Machine/System.lean ====
section
/-! DEFINITION. The interleaving of core steps and host moves (40_machine_loop.md R63), and several instances with their hosts
(60_exceptions.md R104 to R107). A schedule is a list of moves or events, and a claim quantifies over schedules (D21; log
11). -/

namespace Sys2Proof.Machine

/-- One atomic transition of one instance: its core steps (R64), or its host makes a move (R104). -/
inductive Move where
  | core
  | host (op : HostOp)
deriving DecidableEq, Repr

/-- The state after a core step, as a state. -/
def stepState (s : State) : State :=
  match step s with
  | .next t => t
  | .fault _ => s
  | .refused _ => s

/-- The state after one move. -/
def move (v : Move) (s : State) : State :=
  match v with
  | .core => stepState s
  | .host op => (hostMove op s).2

/-- The state after a schedule of moves. -/
def runMoves : List Move → State → State
  | [], s => s
  | v :: vs, s => runMoves vs (move v s)

/-- The messages the host takes from the outbound FIFO in one move. -/
def takenBy (v : Move) (s : State) : List Message :=
  match v with
  | .core => []
  | .host op =>
    match (hostMove op s).1 with
    | .message m => [m]
    | _ => []

/-- The messages the host puts into the inbound FIFO in one move: a push that is made while the machine holds its receiving
endpoint (R96). -/
def pushedBy (v : Move) (s : State) : List Message :=
  match v with
  | .host (.push m) => if (hostPush s m).1 = .done ∧ s.inReaderGone = false then [m] else []
  | _ => []

/-- The messages the core appends to the outbound FIFO in one move. -/
def sentBy (v : Move) (s : State) : List Message :=
  match v with
  | .core => (stepState s).outq.drop s.outq.length
  | .host _ => []

/-- The messages the core takes from the inbound FIFO in one move. -/
def consumedBy (v : Move) (s : State) : List Message :=
  match v with
  | .core => s.inq.take (s.inq.length - (stepState s).inq.length)
  | .host _ => []

/-- What a per-move count collects along a schedule, in order. -/
def collect (f : Move → State → List Message) : List Move → State → List Message
  | [], _ => []
  | v :: vs, s => f v s ++ collect f vs (move v s)

/-! Several instances. -/

/-- The instances, in the order they were spawned. No two share any state (10_state.md R30, R106). -/
abbrev System := List State

/-- One atomic transition of the whole system. -/
inductive Event where
  /-- A move of instance `k`. -/
  | act (k : Nat) (v : Move)
  /-- The host spawns an instance (R111). -/
  | spawn (c : Config) (image : Message) (initial : Option Word)
deriving DecidableEq, Repr

/-- Change instance `k`. -/
def System.update (f : State → State) : Nat → System → System
  | _, [] => []
  | 0, s :: rest => f s :: rest
  | k + 1, s :: rest => s :: System.update f k rest

/-- One event. A spawn whose image does not parse creates no machine (R112). -/
def System.event (e : Event) (y : System) : System :=
  match e with
  | .act k v => System.update (move v) k y
  | .spawn c image initial =>
    match spawn c image initial with
    | some s => y ++ [s]
    | none => y

/-- The system after a schedule. -/
def System.run : List Event → System → System
  | [], y => y
  | e :: es, y => System.run es (System.event e y)

/-- The system after the first `n` events of an endless schedule. -/
def System.runTo (schedule : Nat → Event) (y : System) : Nat → System
  | 0 => y
  | n + 1 => System.event (schedule n) (System.runTo schedule y n)

/-- The move of a host that chains instance `a` into instance `b` (R107): pop from `a`; push the message to `b`, or close
`b`'s inbound FIFO at end-of-output. While `b`'s FIFO is full, or once it is closed, the host pops nothing. -/
def System.forward (a b : Nat) (y : System) : System :=
  match y[a]?, y[b]? with
  | some sa, some sb =>
    if sb.inClosed || (isFull sb.cfg.inDepth sb.inq && !sb.inReaderGone) then y
    else
      match (hostMove .pop sa).1 with
      | .message m => System.event (.act b (.host (.push m))) (System.event (.act a (.host .pop)) y)
      | .endOfOutput => System.event (.act b (.host .close)) y
      | _ => y
  | _, _ => y

end Sys2Proof.Machine
end

