-- ==== Sys2Proof/Safety.lean ====
section
/-! DEFINITION. What claims about runs are stated in: the ends of a run, the wait at a channel, the invariant of reachable
states, and the fairness a claim of termination assumes. -/

namespace Sys2Proof.Machine

/-! When an access goes through, as a condition on the state alone. -/

/-- The tape is `n` words long or can grow to it (20_memory.md R32). -/
abbrev State.growable (s : State) (n : Nat) : Prop := n ≤ s.mem.len ∨ fitsCapacity s.cfg n = true

/-- An access to address `a` raises nothing: `CheckAddr` and `Extend` pass (R31, R32). -/
abbrev State.accessible (s : State) (a : Int) : Prop := 0 ≤ a ∧ a ≤ addrMax ∧ s.growable (a.toNat + 1)

/-- Resolving parameter `i` in mode `m` raises nothing: its slot and its effective address are accessible (R37). -/
abbrev State.resolvable (s : State) (i : Nat) (m : Mode) : Prop :=
  s.accessible (slotAddress s i) ∧ s.accessible (effectiveAddress s i m)

/-- What an access to an inaccessible address raises: `IndexFault` outside the address space, else `CapacityFault`
(R31, R32, in the order of 60_exceptions.md R91). -/
def addressFault (a : Int) : Raised :=
  if 0 ≤ a ∧ a ≤ addrMax then { code := .capacityFault, info := .value a }
  else { code := .indexFault, info := .value a }

/-- What resolving an unresolvable parameter raises: the slot first, then the effective address (R37, R91). -/
def resolveFault (s : State) (i : Nat) (m : Mode) : Raised :=
  if s.accessible (slotAddress s i) then addressFault (effectiveAddress s i m) else addressFault (slotAddress s i)

/-- The tape length that resolving parameter `i` asks for: past its slot and past its effective address (R32, R37). -/
def State.reach (s : State) (i : Nat) (m : Mode) : Nat :=
  max ((slotAddress s i).toNat + 1) ((effectiveAddress s i m).toNat + 1)

/-! What a step did to the tape, through the reads of it. -/

/-- The tape grew to at least `n` words and no word of it changed (R32, R33). -/
def Memory.onlyGrows (m m' : Memory) (n : Nat) : Prop := m'.len = max m.len n ∧ ∀ b, m'.read b = m.read b

/-- The tape grew to at least `n` words, the word at `a` is `v`, and no other word changed. -/
def Memory.stores (m m' : Memory) (n a : Nat) (v : Word) : Prop :=
  m'.len = max m.len n ∧ ∀ b, m'.read b = if b = a then v else m.read b

/-- The tape length that an instruction with three parameters reaches. -/
def State.reach3 (s : State) (m1 m2 m3 : Mode) : Nat := max (max (s.reach 1 m1) (s.reach 2 m2)) (s.reach 3 m3)

/-- `t` is `s` with another tape and another `ptr`, and nothing else. -/
def State.onlyMemPtr (s t : State) : Prop := t = { s with mem := t.mem, ptr := t.ptr }

/-- `ptr` has moved to `next` (10_state.md R14, 40_machine_loop.md R70): it holds `next`, or, for a next pointer above ADDR_MAX, a
negative value, from which the next fetch raises `IndexFault` (log 4). -/
def State.movedTo (t : State) (next : Int) : Prop :=
  (next ≤ addrMax → t.ptr.toInt = next) ∧ (addrMax < next → t.ptr.toInt < 0)

/-! The ends of a run, and waiting. -/

/-- The run of this instance has ended (70_reset_and_hazards.md R121). -/
def State.ended (s : State) : Bool := decide (s.status ≠ .running)

/-- No fault has been raised. -/
def State.safe (s : State) : Bool := decide (s.status ≠ .faulted)

/-- The core is running and its step would hold: it has no enabled transition until the host moves (40_machine_loop.md R67,
60_exceptions.md R98, R110). -/
def State.holding (s : State) : Bool :=
  decide (s.status = .running) &&
    match step s with
    | .next t => decide (t = s)
    | .fault _ => false
    | .refused _ => false

/-- The core has an enabled transition (R63, R64, R67). -/
def State.enabled (s : State) : Bool := decide (s.status = .running) && !s.holding

/-- What holds of every state that spawn and the moves of core and host can reach. -/
structure State.Inv (s : State) : Prop where
  /-- The tape is in its canonical form; with it, `mem[k] = 0` for every `k ≥ len` (10_state.md R18). -/
  memWf : s.mem.wf = true
  /-- Addresses stay at or below ADDR_MAX (20_memory.md R31). -/
  lenBound : s.mem.len ≤ 9223372036854775808
  /-- The fault record is empty unless the machine has faulted (R17). -/
  faultRecord : s.fault.isSome = true ↔ s.status = .faulted
  /-- The record names the `ptr` of the faulting step (R17, R87), which has not moved since (R71). -/
  faultPtr : ∀ r, s.fault = some r → r.ptr = s.ptr
  /-- The machine holds its two endpoints exactly while it runs (R71, R90, R94). -/
  outEndpoint : s.outClosed = true ↔ s.status ≠ .running
  inEndpoint : s.inReaderGone = true ↔ s.status ≠ .running
  /-- Every message the machine has sent is the text of a word (R20, R102). -/
  sentText : ∀ m ∈ s.outq, ∃ v : Word, m = dec v

/-- Weak fairness of the core of instance `k` (40_machine_loop.md R63, D21): if it stays enabled from some point on, it steps
at some later point. -/
def System.weaklyFair (schedule : Nat → Event) (y : System) (k : Nat) : Prop :=
  ∀ n, (∀ m, n ≤ m → ∃ s, (System.runTo schedule y m)[k]? = some s ∧ s.enabled = true) →
    ∃ m, n ≤ m ∧ schedule m = .act k .core

end Sys2Proof.Machine
end

