-- ==== Sys2Proof/Certificates/Slice0/Obligations.lean ====
section
/-! DEFINITION. The statements for the provers. Each docstring names the rule of spec/ it formalises; where a clause rests on a
decision of 92_eei_decisions.md (the spec's own choice, not its source's) or on an entry of the assumption log, the docstring
says so. -/

open Sys2Proof Sys2Proof.Machine

/-! Reset and spawn. -/

/-- `State.reset` is what spawn leaves for the empty word list, no initial input and the default parameters
(70_reset_and_hazards.md R111, R112). The empty image is the model's choice (log 7), MEM_CAPACITY unbounded too (log 1). -/
def Obligations.ResetIsSpawnOfEmptyWordList : Prop :=
  State.reset = spawnWords Config.standard [] none

/-- What spawn leaves (70_reset_and_hazards.md R111): word k of the image at address k, 0 elsewhere, `len` the number of words,
`ptr` and `rel` 0, Running, no fault record, every endpoint held, `inq` the text of the initial input or empty; and no machine
when the image does not load. For every parameter: that an image longer than MEM_CAPACITY is loaded whole (log 10) and that the
initial input is queued whatever IN_DEPTH is (log 9) are the model's choices, the rules being silent. -/
def Obligations.SpawnLeavesResetValues : Prop :=
  (∀ (c : Config) (image : Message) (initial : Option Word),
    (loadImage image = none → spawn c image initial = none) ∧
    (∀ words, loadImage image = some words → spawn c image initial = some (spawnWords c words initial))) ∧
  (∀ (c : Config) (words : List Word) (initial : Option Word),
    let s := spawnWords c words initial
    (∀ k w, words[k]? = some w → s.mem.read k = w) ∧
    (∀ k, words.length ≤ k → s.mem.read k = 0#64) ∧
    s.mem.len = words.length ∧ s.ptr = 0#64 ∧ s.rel = 0#64 ∧ s.status = .running ∧ s.fault = none ∧
    s.outq = [] ∧ s.inClosed = false ∧ s.inReaderGone = false ∧ s.outClosed = false ∧ s.outReaderGone = false ∧
    (initial = none → s.inq = []) ∧ (∀ v, initial = some v → s.inq = [dec v]) ∧ s.cfg = c)

/-- Loading the text of a list of words gives the list back, whatever blanks stand at the end of the text
(70_reset_and_hazards.md, `LoadImage`; the grammar is decision D18). -/
def Obligations.LoadImageReadsPrintedWords : Prop :=
  ∀ (w : Word) (ws : List Word) (blanks : Message), (∀ ch ∈ blanks, isTrailingBlank ch = true) →
    loadImage (List.intercalate [','] ((w :: ws).map dec) ++ blanks) = some (w :: ws)

/-! The memory controller and the resolver. -/

/-- `MemRead` (20_memory.md, `CheckAddr`, `Extend`, `MemRead`; ADDR_MAX and the capacity check are decision D6): inside the
tape the word there and no growth; above it 0 and `len = a + 1`; IndexFault outside the address space, CapacityFault past
MEM_CAPACITY. -/
def Obligations.MemReadAnswers : Prop :=
  ∀ (c : Config) (m : Memory) (a : Int),
    (a < 0 ∨ addrMax < a → memRead c m a = .error { code := .indexFault, info := .value a }) ∧
    (0 ≤ a → a ≤ addrMax → a < m.len → memRead c m a = .ok (m.read a.toNat, m)) ∧
    (0 ≤ a → a ≤ addrMax → m.len ≤ a → (∀ cap, c.memCapacity = some cap → a + 1 ≤ cap) →
      ∃ m', memRead c m a = .ok (0#64, m') ∧ m'.len = a + 1 ∧ ∀ b, m'.read b = m.read b) ∧
    (0 ≤ a → a ≤ addrMax → m.len ≤ a → (∃ cap : Nat, c.memCapacity = some cap ∧ (cap : Int) < a + 1) →
      memRead c m a = .error { code := .capacityFault, info := .value a })

/-- `MemWrite` (20_memory.md, with decision D6 as above): the word at the address becomes the value, no other word changes,
and the tape reaches past the address. -/
def Obligations.MemWriteStoresOneWord : Prop :=
  ∀ (c : Config) (m : Memory) (a : Int) (v : Word),
    (a < 0 ∨ addrMax < a → memWrite c m a v = .error { code := .indexFault, info := .value a }) ∧
    (0 ≤ a → a ≤ addrMax → (a < m.len ∨ ∀ cap, c.memCapacity = some cap → a + 1 ≤ cap) →
      ∃ m', memWrite c m a v = .ok m' ∧ m.stores m' (a.toNat + 1) a.toNat v) ∧
    (0 ≤ a → a ≤ addrMax → m.len ≤ a → (∃ cap : Nat, c.memCapacity = some cap ∧ (cap : Int) < a + 1) →
      memWrite c m a v = .error { code := .capacityFault, info := .value a })

/-- The tape never shrinks and new cells hold 0 (20_memory.md R33): `Extend` is the only primitive that makes `len` larger, a
read or a write has the `len` of its `Extend`, a new cell holds 0 but for the word a write stores, and no step makes `len`
smaller. -/
def Obligations.TapeNeverShrinksAndFillsWithZero : Prop :=
  (∀ (c : Config) (m m' : Memory) (a : Nat), extend c m a = .ok m' →
    m.len ≤ m'.len ∧ (∀ b, m.len ≤ b → m'.read b = 0#64) ∧ ∀ b, b < m.len → m'.read b = m.read b) ∧
  (∀ (c : Config) (m m' : Memory) (a : Int) (w : Word), memRead c m a = .ok (w, m') → extend c m a.toNat = .ok m') ∧
  (∀ (c : Config) (m m' : Memory) (a : Int) (v : Word), memWrite c m a v = .ok m' →
    ∃ m1, extend c m a.toNat = .ok m1 ∧ m'.len = m1.len ∧ ∀ b, b ≠ a.toNat → m'.read b = m1.read b) ∧
  (∀ s t : State, step s = .next t → s.mem.len ≤ t.mem.len)

/-- The addressing resolver (20_memory.md section 3): slot `ptr + i`, checked and extended first; the effective address is the slot's
word (mode 0), the slot (mode 1) or `rel` plus the slot's word, exactly (mode 2); it is checked and extended last. What the two
checks raise, IndexFault by ADDR_MAX and CapacityFault by MEM_CAPACITY (section 1), is decision D6. -/
def Obligations.ResolveGivesEffectiveAddress : Prop :=
  ∀ (s : State) (i : Nat) (m : Mode), 1 ≤ i → i ≤ 3 →
    let slot := s.ptr.toInt + (i : Int)
    let ea := match m with
      | .positional => (s.mem.read slot.toNat).toInt
      | .immediate => slot
      | .relative => s.rel.toInt + (s.mem.read slot.toNat).toInt
    effectiveAddress s i m = ea ∧
    (¬ s.accessible slot → resolve s s.mem i m = .error (addressFault slot)) ∧
    (s.accessible slot → ¬ s.accessible ea → resolve s s.mem i m = .error (addressFault ea)) ∧
    (s.accessible slot → s.accessible ea →
      ∃ mem, resolve s s.mem i m = .ok (ea, mem) ∧ s.mem.onlyGrows mem (max (slot.toNat + 1) (ea.toNat + 1)))

/-- The tape never outgrows MEM_CAPACITY (20_memory.md, `Extend`; decision D6). -/
def Obligations.CapacityIsNeverExceeded : Prop :=
  ∀ (s t : State) (cap : Nat), s.cfg.memCapacity = some cap → s.mem.len ≤ cap → step s = .next t → t.mem.len ≤ cap

/-! The decoder. -/

/-- Decode and encode agree: decoding the canonical word of a well-formed instruction gives it back, every mode digit kept
(30_encoding.md, canonical encoding). -/
def Obligations.DecodeOfEncode : Prop :=
  ∀ (c : Config) (i : Instr), i.wellFormed c = true → decode c (encode i) = .ok i

/-- Under `UNUSED_MODE_DIGITS = fault`, every word that decodes is the canonical word of its instruction (30_encoding.md,
illegal encodings; decision D3): each instruction has exactly one word. -/
def Obligations.EncodeOfDecode : Prop :=
  ∀ (c : Config) (w : Word) (i : Instr), c.unusedModeDigits = .fault → decode c w = .ok i → encode i = w

/-- The decoder answers only instructions that are well formed for its parameters. -/
def Obligations.DecodedIsWellFormed : Prop :=
  ∀ (c : Config) (w : Word) (i : Instr), decode c w = .ok i → i.wellFormed c = true

/-- The fields are decimal digits (30_encoding.md section 1): the opcode is `w mod 100`, mode i is digit i-1 of `w div 100`, the
instruction has the opcode's number of modes, and a digit the word does not have is mode 0. That no negative word decodes is
decision D2; that with `UNUSED_MODE_DIGITS = fault` the digits above the consumed ones are 0 is decision D3. -/
def Obligations.DecodeReadsDecimalDigits : Prop :=
  ∀ (c : Config) (w : Word) (i : Instr), decode c w = .ok i →
    0 ≤ w.toInt ∧
    i.opcode.number = w.toInt.toNat % 100 ∧
    i.modes.length = i.opcode.nParams ∧
    (∀ k m, i.modes[k]? = some m →
      m.toDigit = w.toInt.toNat / 100 / 10 ^ k % 10 ∧ (w.toInt.toNat < 10 ^ (k + 2) → m = .positional)) ∧
    (c.unusedModeDigits = .fault → w.toInt.toNat / 100 / 10 ^ i.opcode.nParams = 0)

/-- Which fault `Decode` raises (30_encoding.md, illegal encodings; decisions D1 to D4 and D7): BadOpcode for a negative word or
an opcode outside the map, else BadMode for a consumed digit above 2, else ImmediateDestination for mode 1 on the destination,
else UnusedModeDigits, each of the last two where its parameter says fault. -/
def Obligations.DecodeFaultsInOrder : Prop :=
  ∀ (c : Config) (w : Word),
    let n := w.toInt.toNat
    let badOp : Prop := w.toInt < 0 ∨ n % 100 ∉ [1, 2, 3, 4, 5, 6, 7, 8, 9, 99]
    (decode c w = .error .badOpcode ↔ badOp) ∧
    (∀ op : Opcode, ¬ badOp → op.number = n % 100 →
      let badDigit : Prop := ∃ k, k < op.nParams ∧ 2 < n / 100 / 10 ^ k % 10
      let immDest : Prop := c.immediateDest = .fault ∧ ∃ d, op.dest = some d ∧ n / 100 / 10 ^ (d - 1) % 10 = 1
      let extra : Prop := c.unusedModeDigits = .fault ∧ n / 100 / 10 ^ op.nParams ≠ 0
      (decode c w = .error .badMode ↔ badDigit) ∧
      (decode c w = .error .immediateDestination ↔ ¬ badDigit ∧ immDest) ∧
      (decode c w = .error .unusedModeDigits ↔ ¬ badDigit ∧ ¬ immDest ∧ extra) ∧
      ((∃ i, decode c w = .ok i ∧ i.opcode = op) ↔ ¬ badDigit ∧ ¬ immDest ∧ ¬ extra))

/-- Words written out from the spec's encoding, one of each instruction, and one word of each decode fault, under the default
parameters (30_encoding.md, 95_test_vectors.md section 2.1). -/
def Obligations.SpecWordsDecodeAsWritten : Prop :=
  decode Config.standard 21101#64 = .ok (.add .immediate .immediate .relative) ∧
  decode Config.standard 1002#64 = .ok (.mul .positional .immediate .positional) ∧
  decode Config.standard 203#64 = .ok (.inp .relative) ∧
  decode Config.standard 104#64 = .ok (.out .immediate) ∧
  decode Config.standard 2105#64 = .ok (.jt .immediate .relative) ∧
  decode Config.standard 1006#64 = .ok (.jf .positional .immediate) ∧
  decode Config.standard 1107#64 = .ok (.lt .immediate .immediate .positional) ∧
  decode Config.standard 1108#64 = .ok (.eq .immediate .immediate .positional) ∧
  decode Config.standard 209#64 = .ok (.arb .relative) ∧
  decode Config.standard 99#64 = .ok .halt ∧
  decode Config.standard (BitVec.ofInt 64 (-99)) = .error .badOpcode ∧
  decode Config.standard 301#64 = .error .badMode ∧
  decode Config.standard 11101#64 = .error .immediateDestination ∧
  decode Config.standard 1099#64 = .error .unusedModeDigits

/-! The step. -/

/-- A step runs the decoded instruction: a running machine whose `ptr` is accessible and whose word there decodes steps as `exec`
of that instruction, in the same state (40_machine_loop.md, the step; a fetch that decodes has not grown the tape). The `len` of
`exec`'s answer counts from the state before the step. -/
def Obligations.StepRunsDecodedInstruction : Prop :=
  ∀ (s : State) (i : Instr), s.status = .running → s.accessible s.ptr.toInt →
    decode s.cfg (s.mem.read s.ptr.toInt.toNat) = .ok i → step s = exec i s

/-- A fetch or decode fault is taken by the step: IndexFault or CapacityFault of `ptr`, else the decode fault with the word
(20_memory.md `Fetch`, 60_exceptions.md sections 1 and 2; decisions D6, D7, D9, D10). -/
def Obligations.StepTakesFetchAndDecodeFaults : Prop :=
  ∀ s : State, s.status = .running →
    (s.ptr.toInt < 0 →
      step s = .next { s with
        status := .faulted, outClosed := true, inReaderGone := true,
        fault := some { code := .indexFault, ptr := s.ptr, info := .value s.ptr.toInt } }) ∧
    (0 ≤ s.ptr.toInt → ¬ s.growable (s.ptr.toInt.toNat + 1) →
      step s = .next { s with
        status := .faulted, outClosed := true, inReaderGone := true,
        fault := some { code := .capacityFault, ptr := s.ptr, info := .value s.ptr.toInt } }) ∧
    (∀ f, s.accessible s.ptr.toInt → decode s.cfg (s.mem.read s.ptr.toInt.toNat) = .error f →
      step s = .next { s with
        status := .faulted, outClosed := true, inReaderGone := true,
        fault := some { code := decodeFaultCode f, ptr := s.ptr, info := .value (s.mem.read s.ptr.toInt.toNat).toInt } })

/-- The word 0 at or beyond the end of the tape stops a run: a running machine whose `ptr` is at or above `len`, with room to
grow, faults with BadOpcode of 0 and its `len` is unchanged (20_memory.md `Fetch`; decision D9 for `len`). -/
def Obligations.RunningOffTheTapeIsBadOpcode : Prop :=
  ∀ s : State, s.status = .running → s.accessible s.ptr.toInt → (s.mem.len : Int) ≤ s.ptr.toInt →
    step s = .next { s with
      status := .faulted, outClosed := true, inReaderGone := true,
      fault := some { code := .badOpcode, ptr := s.ptr, info := .value 0 } }

/-- The end of the loop (40_machine_loop.md section 4): an ended machine's step changes nothing, and the step that ends a machine
drops both of its channel endpoints. That the step of an ended machine answers a next state at all, the same one, is the
model's choice (log 5): the spec says the core has no further step. -/
def Obligations.EndedMachineNeverChanges : Prop :=
  (∀ s t : State, s.status ≠ .running → step s = .next t → t = s) ∧
  (∀ s : State, s.status ≠ .running → ∃ t, step s = .next t) ∧
  (∀ s t : State, s.status = .running → step s = .next t → t.status ≠ .running →
    t.outClosed = true ∧ t.inReaderGone = true)

/-- A step that raises a fault commits none of its effects (60_exceptions.md section 2; decisions D9, D10): everything but the
status, the record and the two endpoints is as before the step. -/
def Obligations.FaultingStepCommitsNothing : Prop :=
  ∀ s t : State, s.status = .running → step s = .next t → t.status = .faulted →
    ∃ code info, t = { s with
      status := .faulted, outClosed := true, inReaderGone := true,
      fault := some { code := code, ptr := s.ptr, info := info } }

/-- Faults are synchronous and precise (60_exceptions.md R87): a machine comes to be faulted only in its own step, and the record
then names the `ptr` of that step; a host move raises no fault and changes no record. -/
def Obligations.FaultsAreSynchronousAndPrecise : Prop :=
  (∀ s t : State, s.status = .running → step s = .next t → t.status = .faulted →
    ∃ r, t.fault = some r ∧ r.ptr = s.ptr) ∧
  (∀ (op : HostOp) (s : State), (hostMove op s).2.status = s.status ∧ (hostMove op s).2.fault = s.fault)

/-- Parameters are resolved in order and the first that cannot be resolved is the fault, whatever the instruction; parameter 2 of
a jump that is not taken and the parameter of an IN with no input included (40_machine_loop.md section 3, 60_exceptions.md
section 2; decisions D7, D8). -/
def Obligations.OperandFaultsInOrder : Prop :=
  ∀ (s : State) (i : Instr) (k : Nat) (m : Mode), i.modes[k]? = some m → ¬ s.resolvable (k + 1) m →
    (∀ j m', j < k → i.modes[j]? = some m' → s.resolvable (j + 1) m') →
    exec i s = .next { s with
      status := .faulted, outClosed := true, inReaderGone := true,
      fault := some { code := (resolveFault s (k + 1) m).code, ptr := s.ptr, info := (resolveFault s (k + 1) m).info } }

/-- Only HALT and a taken self-jump halt (40_machine_loop.md, halt detection), and `ptr` then stays. -/
def Obligations.OnlyHaltAndSelfJumpHalt : Prop :=
  ∀ s t : State, s.status = .running → step s = .next t → t.status = .halted →
    t.ptr = s.ptr ∧
    (decode s.cfg (s.mem.read s.ptr.toInt.toNat) = .ok .halt ∨
      ∃ m1 m2, operandValue s 2 m2 = s.ptr ∧
        ((decode s.cfg (s.mem.read s.ptr.toInt.toNat) = .ok (.jt m1 m2) ∧ operandValue s 1 m1 ≠ 0#64) ∨
          (decode s.cfg (s.mem.read s.ptr.toInt.toNat) = .ok (.jf m1 m2) ∧ operandValue s 1 m1 = 0#64)))

/-- The two kinds of halt are treated identically (40_machine_loop.md R66): a taken self-jump leaves what HALT leaves, but for the
growth of the tape by its operands, which changes no word. -/
def Obligations.HaltAndSelfJumpAreIndistinguishable : Prop :=
  ∀ (s : State) (m1 m2 : Mode), s.resolvable 1 m1 → s.resolvable 2 m2 → operandValue s 2 m2 = s.ptr →
    ∃ u, exec .halt s = .next u ∧
      (operandValue s 1 m1 ≠ 0#64 → ∃ t, exec (.jt m1 m2) s = .next t ∧ t = { u with mem := t.mem } ∧
        s.mem.onlyGrows t.mem (max (s.reach 1 m1) (s.reach 2 m2))) ∧
      (operandValue s 1 m1 = 0#64 → ∃ t, exec (.jf m1 m2) s = .next t ∧ t = { u with mem := t.mem } ∧
        s.mem.onlyGrows t.mem (max (s.reach 1 m1) (s.reach 2 m2)))

/-! The instructions: where each completes, and with what. That `ptr` moves by k is `movedTo`: it holds its old value plus k, and
where that is ADDR_MAX + 1, which no signed 64-bit register holds, some negative value (the model's reading, log 4). -/

/-- ADD completes (41_arithmetic.md, ADD): with its three parameters resolvable and the exact sum in `Int64`, the sum goes to the
effective address of parameter 3 and `ptr` moves by 4 (log 4); nothing else changes but the length of the tape. -/
def Obligations.AddCompletes : Prop :=
  ∀ (s : State) (m1 m2 m3 : Mode), s.resolvable 1 m1 → s.resolvable 2 m2 → s.resolvable 3 m3 →
    Word.minValue ≤ (operandValue s 1 m1).toInt + (operandValue s 2 m2).toInt →
    (operandValue s 1 m1).toInt + (operandValue s 2 m2).toInt ≤ Word.maxValue →
    ∃ t r, exec (.add m1 m2 m3) s = .next t ∧ s.onlyMemPtr t ∧ t.movedTo (s.ptr.toInt + 4) ∧
      r.toInt = (operandValue s 1 m1).toInt + (operandValue s 2 m2).toInt ∧
      s.mem.stores t.mem (s.reach3 m1 m2 m3) (effectiveAddress s 3 m3).toNat r

/-- MUL completes (41_arithmetic.md, MUL), as ADD with the exact product (`ptr`: log 4). -/
def Obligations.MulCompletes : Prop :=
  ∀ (s : State) (m1 m2 m3 : Mode), s.resolvable 1 m1 → s.resolvable 2 m2 → s.resolvable 3 m3 →
    Word.minValue ≤ (operandValue s 1 m1).toInt * (operandValue s 2 m2).toInt →
    (operandValue s 1 m1).toInt * (operandValue s 2 m2).toInt ≤ Word.maxValue →
    ∃ t r, exec (.mul m1 m2 m3) s = .next t ∧ s.onlyMemPtr t ∧ t.movedTo (s.ptr.toInt + 4) ∧
      r.toInt = (operandValue s 1 m1).toInt * (operandValue s 2 m2).toInt ∧
      s.mem.stores t.mem (s.reach3 m1 m2 m3) (effectiveAddress s 3 m3).toNat r

/-- LT and EQ complete (44_compare.md) whatever the values, since a compare never overflows: 1 or 0 by the signed comparison goes to
the effective address of parameter 3 and `ptr` moves by 4 (log 4). -/
def Obligations.CompareCompletes : Prop :=
  ∀ (s : State) (m1 m2 m3 : Mode), s.resolvable 1 m1 → s.resolvable 2 m2 → s.resolvable 3 m3 →
    (∃ t r, exec (.lt m1 m2 m3) s = .next t ∧ s.onlyMemPtr t ∧ t.movedTo (s.ptr.toInt + 4) ∧
      r.toInt = (if (operandValue s 1 m1).toInt < (operandValue s 2 m2).toInt then 1 else 0) ∧
      s.mem.stores t.mem (s.reach3 m1 m2 m3) (effectiveAddress s 3 m3).toNat r) ∧
    (∃ t r, exec (.eq m1 m2 m3) s = .next t ∧ s.onlyMemPtr t ∧ t.movedTo (s.ptr.toInt + 4) ∧
      r.toInt = (if (operandValue s 1 m1).toInt = (operandValue s 2 m2).toInt then 1 else 0) ∧
      s.mem.stores t.mem (s.reach3 m1 m2 m3) (effectiveAddress s 3 m3).toNat r)

/-- ARB completes (45_relative_base.md): with its parameter resolvable, with the old `rel`, and the exact sum in `Int64`, `rel`
becomes the sum and `ptr` moves by 2 (log 4); no word of memory changes. -/
def Obligations.ArbCompletes : Prop :=
  ∀ (s : State) (m1 : Mode), s.resolvable 1 m1 →
    Word.minValue ≤ s.rel.toInt + (operandValue s 1 m1).toInt →
    s.rel.toInt + (operandValue s 1 m1).toInt ≤ Word.maxValue →
    ∃ t, exec (.arb m1) s = .next t ∧ t = { s with mem := t.mem, rel := t.rel, ptr := t.ptr } ∧ t.movedTo (s.ptr.toInt + 2) ∧
      t.rel.toInt = s.rel.toInt + (operandValue s 1 m1).toInt ∧ s.mem.onlyGrows t.mem (s.reach 1 m1)

/-- An exact result outside `Int64` raises OverflowFault with that result, and nothing is written (decision D5: ADD, MUL and ARB
never wrap or saturate). -/
def Obligations.OverflowIsTakenAsFault : Prop :=
  ∀ (s : State) (r : Int), ¬ (Word.minValue ≤ r ∧ r ≤ Word.maxValue) →
    let faulted : State := { s with
      status := .faulted, outClosed := true, inReaderGone := true,
      fault := some { code := .overflowFault, ptr := s.ptr, info := .value r } }
    (∀ m1 m2 m3, s.resolvable 1 m1 → s.resolvable 2 m2 → s.resolvable 3 m3 →
      (r = (operandValue s 1 m1).toInt + (operandValue s 2 m2).toInt → exec (.add m1 m2 m3) s = .next faulted) ∧
      (r = (operandValue s 1 m1).toInt * (operandValue s 2 m2).toInt → exec (.mul m1 m2 m3) s = .next faulted)) ∧
    (∀ m1, s.resolvable 1 m1 → r = s.rel.toInt + (operandValue s 1 m1).toInt → exec (.arb m1) s = .next faulted)

/-- JT completes (43_jumps.md, JT; the operands are always resolved, decision D8): a nonzero condition puts the word of parameter 2
in `ptr`, a zero one moves `ptr` by 3 (log 4); a taken jump to its own address halts instead. -/
def Obligations.JtCompletes : Prop :=
  ∀ (s : State) (m1 m2 : Mode), s.resolvable 1 m1 → s.resolvable 2 m2 →
    ∃ t, exec (.jt m1 m2) s = .next t ∧ s.mem.onlyGrows t.mem (max (s.reach 1 m1) (s.reach 2 m2)) ∧
      (operandValue s 1 m1 = 0#64 → t = { s with mem := t.mem, ptr := t.ptr } ∧ t.movedTo (s.ptr.toInt + 3)) ∧
      (operandValue s 1 m1 ≠ 0#64 → operandValue s 2 m2 ≠ s.ptr →
        t = { s with mem := t.mem, ptr := operandValue s 2 m2 }) ∧
      (operandValue s 1 m1 ≠ 0#64 → operandValue s 2 m2 = s.ptr →
        t = { s with mem := t.mem, status := .halted, outClosed := true, inReaderGone := true })

/-- JF completes (43_jumps.md, JF; decision D8): a zero condition puts the word of parameter 2 in `ptr`, any other moves `ptr` by 3 (log 4);
a taken jump to its own address halts instead. -/
def Obligations.JfCompletes : Prop :=
  ∀ (s : State) (m1 m2 : Mode), s.resolvable 1 m1 → s.resolvable 2 m2 →
    ∃ t, exec (.jf m1 m2) s = .next t ∧ s.mem.onlyGrows t.mem (max (s.reach 1 m1) (s.reach 2 m2)) ∧
      (operandValue s 1 m1 ≠ 0#64 → t = { s with mem := t.mem, ptr := t.ptr } ∧ t.movedTo (s.ptr.toInt + 3)) ∧
      (operandValue s 1 m1 = 0#64 → operandValue s 2 m2 ≠ s.ptr →
        t = { s with mem := t.mem, ptr := operandValue s 2 m2 }) ∧
      (operandValue s 1 m1 = 0#64 → operandValue s 2 m2 = s.ptr →
        t = { s with mem := t.mem, status := .halted, outClosed := true, inReaderGone := true })

/-- IN completes (42_io.md, IN): with its destination resolvable and a message at the head of the inbound FIFO that is the text of
the word `v`, the message is consumed, `v` goes to the effective address, and `ptr` moves by 2 (log 4), whether or not the host has closed
the channel. -/
def Obligations.InCompletes : Prop :=
  ∀ (s : State) (m1 : Mode) (msg : Message) (rest : List Message) (v : Word), s.resolvable 1 m1 →
    s.inq = msg :: rest → parseInt? msg = some v →
    ∃ t, exec (.inp m1) s = .next t ∧ t = { s with mem := t.mem, inq := rest, ptr := t.ptr } ∧ t.movedTo (s.ptr.toInt + 2) ∧
      s.mem.stores t.mem (s.reach 1 m1) (effectiveAddress s 1 m1).toNat v

/-- IN without a value (42_io.md, IN; 40_machine_loop.md section 2): it holds, with no effect, on an empty open FIFO (the model
answers the same state, log 6; decision D28); it ends the machine as InputClosed, with nothing else changed, on an empty closed one
(decision D17); it raises ParseFault, the message not consumed, on a message that is no integer (decisions D9, D14). -/
def Obligations.InHoldsEndsOrFaults : Prop :=
  ∀ (s : State) (m1 : Mode), s.resolvable 1 m1 →
    (s.inq = [] → s.inClosed = false → exec (.inp m1) s = .next s) ∧
    (s.inq = [] → s.inClosed = true →
      exec (.inp m1) s = .next { s with status := .inputClosed, outClosed := true, inReaderGone := true }) ∧
    (∀ msg rest, s.inq = msg :: rest → parseInt? msg = none →
      exec (.inp m1) s = .next { s with
        status := .faulted, outClosed := true, inReaderGone := true,
        fault := some { code := .parseFault, ptr := s.ptr, info := .message msg } })

/-- OUT completes (42_io.md, OUT): with its source resolvable, the host's receiver there and room in the outbound FIFO, the decimal
text of the operand goes to the tail of the FIFO and `ptr` moves by 2 (log 4); no word of memory changes. -/
def Obligations.OutCompletes : Prop :=
  ∀ (s : State) (m1 : Mode), s.resolvable 1 m1 → s.outReaderGone = false →
    (∀ d, s.cfg.outDepth = some d → s.outq.length < d) →
    ∃ t, exec (.out m1) s = .next t ∧
      t = { s with mem := t.mem, outq := s.outq ++ [dec (operandValue s 1 m1)], ptr := t.ptr } ∧ t.movedTo (s.ptr.toInt + 2) ∧
      s.mem.onlyGrows t.mem (s.reach 1 m1)

/-- OUT that cannot send (42_io.md, OUT; 60_exceptions.md section 5): with the host's receiver gone it raises OutputClosed with the value,
or drops the value and goes on (`ptr`: log 4), as OUTPUT_CLOSED says (decision D13), whether or not the FIFO is full (the order is the
model's choice, log 9); a full FIFO of finite depth holds the core (decision D11), and the model answers the same state (log 6). -/
def Obligations.OutFollowsOutputClosedAndDepth : Prop :=
  ∀ (s : State) (m1 : Mode), s.resolvable 1 m1 →
    (s.outReaderGone = true → s.cfg.outputClosed = .fault →
      exec (.out m1) s = .next { s with
        status := .faulted, outClosed := true, inReaderGone := true,
        fault := some { code := .outputClosed, ptr := s.ptr, info := .value (operandValue s 1 m1).toInt } }) ∧
    (s.outReaderGone = true → s.cfg.outputClosed = .discard →
      ∃ t, exec (.out m1) s = .next t ∧ s.onlyMemPtr t ∧ t.movedTo (s.ptr.toInt + 2) ∧ s.mem.onlyGrows t.mem (s.reach 1 m1)) ∧
    (∀ d, s.outReaderGone = false → s.cfg.outDepth = some d → d ≤ s.outq.length → exec (.out m1) s = .next s)

/-- HALT (46_halt.md; the readout is decision D16, the two decode faults D2 and D3): `ptr` stays at the HALT word, the machine is
Halted with both endpoints dropped, no word, no `rel`, no FIFO and no `len` changes, and the host may read memory out; it alone has
no parameter; `1099` raises UnusedModeDigits where UNUSED_MODE_DIGITS is fault, and `-99` raises BadOpcode. -/
def Obligations.HaltStopsTheMachine : Prop :=
  (∀ s : State, exec .halt s = .next { s with status := .halted, outClosed := true, inReaderGone := true }) ∧
  (∀ s : State, s.status = .running → s.accessible s.ptr.toInt → s.mem.read s.ptr.toInt.toNat = 99#64 →
    ∃ t, step s = .next t ∧ t = { s with status := .halted, outClosed := true, inReaderGone := true } ∧
      readoutAnswer t = .contents s.mem.len s.mem.toWords) ∧
  (∀ i : Instr, i.modes = [] ↔ i = .halt) ∧
  (∀ c : Config, c.unusedModeDigits = .fault → decode c 1099#64 = .error .unusedModeDigits) ∧
  (∀ c : Config, decode c (BitVec.ofInt 64 (-99)) = .error .badOpcode)

/-! Frames. -/

/-- A step makes at most one architectural write, after its reads (40_machine_loop.md R69): one word, at the effective address of the
destination and computed from the operands as they were before the step (ADD, MUL, LT, EQ) or from the message taken (IN); or `rel`
(ARB); or one message appended (OUT); JT, JF and HALT write nothing besides `ptr`, or `status` when they halt. For a fault, a hold
and an end of input too. -/
def Obligations.AtMostOneArchitecturalWrite : Prop :=
  ∀ (s t : State) (i : Instr), exec i s = .next t →
    let wroteOnly (a : Int) (value : Int → Prop) : Prop :=
      (∀ b, b ≠ a.toNat → t.mem.read b = s.mem.read b) ∧
      (t.mem.read a.toNat = s.mem.read a.toNat ∨ value (t.mem.read a.toNat).toInt)
    let memSame : Prop := ∀ b, t.mem.read b = s.mem.read b
    match i with
    | .add m1 m2 m3 => t.rel = s.rel ∧ t.outq = s.outq ∧ wroteOnly (effectiveAddress s 3 m3)
        (fun r => r = (operandValue s 1 m1).toInt + (operandValue s 2 m2).toInt)
    | .mul m1 m2 m3 => t.rel = s.rel ∧ t.outq = s.outq ∧ wroteOnly (effectiveAddress s 3 m3)
        (fun r => r = (operandValue s 1 m1).toInt * (operandValue s 2 m2).toInt)
    | .lt m1 m2 m3 => t.rel = s.rel ∧ t.outq = s.outq ∧ wroteOnly (effectiveAddress s 3 m3)
        (fun r => r = if (operandValue s 1 m1).toInt < (operandValue s 2 m2).toInt then 1 else 0)
    | .eq m1 m2 m3 => t.rel = s.rel ∧ t.outq = s.outq ∧ wroteOnly (effectiveAddress s 3 m3)
        (fun r => r = if (operandValue s 1 m1).toInt = (operandValue s 2 m2).toInt then 1 else 0)
    | .inp m1 => t.rel = s.rel ∧ t.outq = s.outq ∧ wroteOnly (effectiveAddress s 1 m1)
        (fun r => ∃ msg rest v, s.inq = msg :: rest ∧ parseInt? msg = some v ∧ r = v.toInt)
    | .arb m1 => memSame ∧ t.outq = s.outq ∧
        (t.rel = s.rel ∨ t.rel.toInt = s.rel.toInt + (operandValue s 1 m1).toInt)
    | .out m1 => memSame ∧ t.rel = s.rel ∧ (t.outq = s.outq ∨ t.outq = s.outq ++ [dec (operandValue s 1 m1)])
    | .jt _ _ => memSame ∧ t.rel = s.rel ∧ t.outq = s.outq
    | .jf _ _ => memSame ∧ t.rel = s.rel ∧ t.outq = s.outq
    | .halt => memSame ∧ t.rel = s.rel ∧ t.outq = s.outq

/-- Frame of every instruction on what is not memory, `rel` or `ptr`: the host's two flags and the parameters never change; only IN
takes from `inq`, and only its head; only OUT adds to `outq`; the status, the record and the machine's endpoints change together,
and only when the step ends the machine (40_machine_loop.md section 3, 10_state.md sections 2 to 4). -/
def Obligations.InstructionFrame : Prop :=
  ∀ (s t : State) (i : Instr), exec i s = .next t →
    t.cfg = s.cfg ∧ t.inClosed = s.inClosed ∧ t.outReaderGone = s.outReaderGone ∧
    (t.inq = s.inq ∨ ∃ m1 msg, i = .inp m1 ∧ s.inq = msg :: t.inq) ∧
    (t.outq = s.outq ∨ ∃ m1, i = .out m1 ∧ t.outq = s.outq ++ [dec (operandValue s 1 m1)]) ∧
    ((t.status = s.status ∧ t.fault = s.fault ∧ t.outClosed = s.outClosed ∧ t.inReaderGone = s.inReaderGone) ∨
      (t.status ≠ .running ∧ t.ptr = s.ptr ∧ t.outClosed = true ∧ t.inReaderGone = true ∧
        (t.status ≠ .faulted → t.fault = s.fault)))

/-- `rel` changes only by ARB (10_state.md, registers): a step that changes it ran an ARB. -/
def Obligations.RelChangesOnlyByArb : Prop :=
  ∀ s t : State, step s = .next t → t.rel ≠ s.rel →
    ∃ m1, decode s.cfg (s.mem.read s.ptr.toInt.toNat) = .ok (.arb m1) ∧
      t.rel.toInt = s.rel.toInt + (operandValue s 1 m1).toInt

/-! Channels and text. -/

/-- Channel ordering (60_exceptions.md R97), over every schedule of core steps and host moves: what the host has taken, then what is
still queued, is what was queued at the start and then what the core has sent, in order; and the same of the inbound channel. -/
def Obligations.ChannelsKeepOrderAndLoseNothing : Prop :=
  ∀ (schedule : List Move) (s : State),
    collect takenBy schedule s ++ (runMoves schedule s).outq = s.outq ++ collect sentBy schedule s ∧
    collect consumedBy schedule s ++ (runMoves schedule s).inq = s.inq ++ collect pushedBy schedule s

/-- The text of a word reads back as the word (60_exceptions.md section 5, `ParseInt` and `Dec`; decisions D14, D15): what OUT sends,
an IN takes as the same value. -/
def Obligations.ParseIntOfDec : Prop :=
  ∀ v : Word, parseInt? (dec v) = some v

/-- The canonical decimal text (60_exceptions.md section 5, `Dec`; decision D15): `-` exactly for a negative value, then one digit or
more, no leading 0 but for the value 0, and the digits' value is the magnitude. -/
def Obligations.DecIsCanonicalDecimal : Prop :=
  ∀ v : Word, ∃ ds : List Char, ds ≠ [] ∧ (∀ ch ∈ ds, 48 ≤ ch.toNat ∧ ch.toNat ≤ 57) ∧
    dec v = (if v.toInt < 0 then '-' :: ds else ds) ∧
    (ds.head? = some '0' → v.toInt = 0 ∧ ds = ['0']) ∧
    ds.foldl (fun n ch => n * 10 + (ch.toNat - 48)) 0 = v.toInt.natAbs

/-- The inbound grammar (60_exceptions.md section 5, `ParseInt`; decision D14): the strings accepted are exactly an optional sign and one
digit or more with a value in `Int64`, and that value is the answer. -/
def Obligations.ParseIntAcceptsExactlySignedDecimals : Prop :=
  ∀ (msg : Message) (v : Word),
    parseInt? msg = some v ↔
      ∃ sign ds : List Char, msg = sign ++ ds ∧ (sign = [] ∨ sign = ['+'] ∨ sign = ['-']) ∧ ds ≠ [] ∧
        (∀ ch ∈ ds, 48 ≤ ch.toNat ∧ ch.toNat ≤ 57) ∧
        v.toInt = (if sign = ['-'] then -1 else 1) * ((ds.foldl (fun n ch => n * 10 + (ch.toNat - 48)) 0 : Nat) : Int)

/-! Waiting. -/

/-- With an unbounded outbound FIFO (decision D11) the core is never blocked but at IN (40_machine_loop.md section 4): it is held
exactly at an IN whose destination resolves (decision D7: the destination is resolved before the receive), on an empty inbound
FIFO that the host has not closed; and every other step of a running machine moves `ptr` (past the top: log 4) or ends the machine. A hold leaves the
whole state (decision D28), and the model then answers the same state (log 6). -/
def Obligations.CoreBlocksOnlyAtInput : Prop :=
  ∀ s : State, s.cfg.outDepth = none →
    (s.holding = true ↔
      s.status = .running ∧ s.accessible s.ptr.toInt ∧ s.inq = [] ∧ s.inClosed = false ∧
        ∃ m1, decode s.cfg (s.mem.read s.ptr.toInt.toNat) = .ok (.inp m1) ∧ s.resolvable 1 m1) ∧
    (∀ t, s.status = .running → s.holding = false → step s = .next t → t.ptr ≠ s.ptr ∨ t.status ≠ .running)

/-- A host push or close wakes a core that waits for input, and no other host move does; all state but the channel's own survives the
wait (60_exceptions.md section 8, 40_machine_loop.md section 2; unbounded FIFOs by decision D11). -/
def Obligations.PushOrCloseWakesTheCore : Prop :=
  ∀ s : State, s.cfg.outDepth = none → s.cfg.inDepth = none → s.inReaderGone = false → s.holding = true →
    (∀ msg, (hostMove (.push msg) s).2 = { s with inq := [msg] } ∧ (hostMove (.push msg) s).2.holding = false) ∧
    ((hostMove .close s).2 = { s with inClosed := true } ∧ (hostMove .close s).2.holding = false) ∧
    (hostMove .pop s).2.holding = true ∧ (hostMove .drop s).2.holding = true ∧
    (hostMove .join s).2 = s ∧ (hostMove .readout s).2 = s

/-! The host. -/

/-- What the host never does (60_exceptions.md R105): no host move changes `ptr`, `rel`, the tape, the status, the record, the machine's
endpoints or the parameters, running or ended; what it answers while the machine runs does not depend on `ptr`, `rel` or the tape; a push
after closing and a pop after dropping are no moves; and no host move places a message in `outq`. -/
def Obligations.HostNeverTouchesTheCore : Prop :=
  (∀ (op : HostOp) (s : State),
    let t := (hostMove op s).2
    t.ptr = s.ptr ∧ t.rel = s.rel ∧ t.mem = s.mem ∧ t.status = s.status ∧ t.fault = s.fault ∧
      t.outClosed = s.outClosed ∧ t.inReaderGone = s.inReaderGone ∧ t.cfg = s.cfg ∧
      (t.outq = s.outq ∨ ∃ m, s.outq = m :: t.outq)) ∧
  (∀ (op : HostOp) (s : State) (p r : Word) (mem : Memory), s.status = .running →
    (hostMove op { s with ptr := p, rel := r, mem := mem }).1 = (hostMove op s).1) ∧
  (∀ (m : Message) (s : State), s.inClosed = true → hostMove (.push m) s = (.notAMove, s)) ∧
  (∀ s : State, s.outReaderGone = true → hostMove .pop s = (.notAMove, s))

/-- The core never touches what the host owns: a step changes neither `in_closed` nor `out_reader_gone`, never adds to `inq` and never
takes from `outq`; and the parameters never change (10_state.md section 4 and 6; the parameters as a field: log 1). -/
def Obligations.CoreNeverTouchesTheHostSide : Prop :=
  ∀ s t : State, step s = .next t →
    t.inClosed = s.inClosed ∧ t.outReaderGone = s.outReaderGone ∧ t.cfg = s.cfg ∧
    (∃ taken, s.inq = taken ++ t.inq ∧ taken.length ≤ 1) ∧ (∃ sent, t.outq = s.outq ++ sent ∧ sent.length ≤ 1)

/-- The join port (10_state.md R29): it waits while the machine runs, then answers Ok after Halted or InputClosed and Failed after
Faulted; it changes nothing. -/
def Obligations.JoinAnswersByStatus : Prop :=
  ∀ s : State,
    hostMove .join s =
      (match s.status with
        | .running => HostAnswer.held
        | .halted => HostAnswer.joinOk
        | .inputClosed => HostAnswer.joinOk
        | .faulted => HostAnswer.joinFailed, s)

/-- The memory readout (10_state.md section 8; decision D16): after a graceful end it answers `len` and the word at every address below it;
after a fault nothing; while the machine runs it is no move. -/
def Obligations.ReadoutOnlyAfterGracefulEnd : Prop :=
  ∀ s : State,
    ((s.status = .halted ∨ s.status = .inputClosed) →
      ∃ words, hostMove .readout s = (.contents s.mem.len words, s) ∧ words.length = s.mem.len ∧
        ∀ k, k < s.mem.len → words[k]? = some (s.mem.read k)) ∧
    (s.status = .faulted → hostMove .readout s = (.nothing, s)) ∧
    (s.status = .running → hostMove .readout s = (.notAMove, s))

/-- The host's moves on the two channels (60_exceptions.md section 5; decisions D11, D12, D22): a push appends, or is discarded once
the machine has ended, or is held by a full FIFO; a close drops the host's sending endpoint; a pop takes the head, then sees
end-of-output once the machine has dropped its endpoint, else waits; a drop drops the host's receiving endpoint. That a push after the
machine's end is discarded also where a FIFO of finite depth is full is the model's choice of order (log 9). -/
def Obligations.PushAndPopFollowTheFifo : Prop :=
  ∀ (s : State) (msg : Message),
    (s.inClosed = false → s.inReaderGone = true → hostMove (.push msg) s = (.done, s)) ∧
    (s.inClosed = false → s.inReaderGone = false → (∀ d, s.cfg.inDepth = some d → s.inq.length < d) →
      hostMove (.push msg) s = (.done, { s with inq := s.inq ++ [msg] })) ∧
    (∀ d, s.inClosed = false → s.inReaderGone = false → s.cfg.inDepth = some d → d ≤ s.inq.length →
      hostMove (.push msg) s = (.held, s)) ∧
    (∀ m rest, s.outReaderGone = false → s.outq = m :: rest →
      hostMove .pop s = (.message m, { s with outq := rest })) ∧
    (s.outReaderGone = false → s.outq = [] → s.outClosed = true → hostMove .pop s = (.endOfOutput, s)) ∧
    (s.outReaderGone = false → s.outq = [] → s.outClosed = false → hostMove .pop s = (.held, s)) ∧
    hostMove .close s = (.done, { s with inClosed := true }) ∧
    hostMove .drop s = (.done, { s with outReaderGone := true })

/-- What a run delivers (70_reset_and_hazards.md, the end of a run; 60_exceptions.md): nothing while it runs; then the status and the
messages in order, with the memory after a graceful end only and the record after a fault only. -/
def Obligations.RunDeliversAtItsEnd : Prop :=
  ∀ (taken : List Message) (s : State),
    (s.status = .running → delivered taken s = none) ∧
    (s.status ≠ .running → ∃ d, delivered taken s = some d ∧ d.status = s.status ∧ d.outputs = taken ++ s.outq ∧
      (s.status = .faulted → d.memory = none ∧ d.fault = s.fault) ∧
      (s.status ≠ .faulted → d.fault = none ∧
        ∃ words, d.memory = some (s.mem.len, words) ∧ words.length = s.mem.len ∧
          ∀ k, k < s.mem.len → words[k]? = some (s.mem.read k)))

/-- Instances share no state (10_state.md section 8, 60_exceptions.md section 7): a move of one instance leaves every other as it was, its own next
state depends on itself alone, and a spawn leaves every instance as it was. -/
def Obligations.InstancesAreIndependent : Prop :=
  (∀ (y : System) (k j : Nat) (v : Move), j ≠ k → (System.event (.act k v) y)[j]? = y[j]?) ∧
  (∀ (y : System) (k : Nat) (v : Move) (s : State), y[k]? = some s → (System.event (.act k v) y)[k]? = some (move v s)) ∧
  (∀ (y : System) (c : Config) (image : Message) (initial : Option Word) (j : Nat) (s : State), y[j]? = some s →
    (System.event (.spawn c image initial) y)[j]? = some s)

/-! Loading, and the assembler notation. -/

/-- An instruction word placed where a machine at reset fetches is run by its next step, as the decoder reads it (log 7). -/
def Obligations.PlacedWordRunsNext : Prop :=
  ∀ (nbits w : Nat) (i : Instr), decodeTableWord nbits w = some i →
    step (State.reset.withFetchWord nbits w) = exec i (State.reset.withFetchWord nbits w)

/-- The assembler notation (30_encoding.md section 5; decision D20): an instruction written with its operands assembles to as many words as it
is long, and its first word is the canonical word of the instruction with the modes the operands are written in. -/
def Obligations.AssembledInstructionIsCanonical : Prop :=
  ∀ (table : List (List Char × Nat)) (i : Instr) (operands : List AsmOperand) (words : List Word),
    i.modes = operands.map AsmOperand.mode → AsmItem.words table (.instr i.opcode operands) = some words →
    words.length = i.opcode.length ∧ words.head? = some (encode i)

/-! Invariants. -/

/-- The invariant holds after reset. -/
def Obligations.ResetMeetsInvariant : Prop :=
  State.reset.Inv

/-- The invariant holds after every spawn of an image of at most 2^63 words. -/
def Obligations.SpawnMeetsInvariant : Prop :=
  ∀ (c : Config) (words : List Word) (initial : Option Word), words.length ≤ 9223372036854775808 →
    (spawnWords c words initial).Inv

/-- Every step keeps the invariant, from every state that has it: the tape's canonical form and bound, the record there exactly when
faulted and naming `ptr`, the endpoints held exactly while running, and every sent message the text of a word (the text is decision
D15). -/
def Obligations.StepKeepsInvariant : Prop :=
  ∀ s t : State, s.Inv → step s = .next t → t.Inv

/-- Every host move keeps the invariant. -/
def Obligations.HostMoveKeepsInvariant : Prop :=
  ∀ (op : HostOp) (s : State), s.Inv → (hostMove op s).2.Inv

/-- Every reachable state has the invariant: after any schedule of spawns, core steps and host moves (schedules: log 11), starting with
no machine, where no image is longer than the address space (an image has no bound of its own: log 10), and though `ptr` may hold the
free value of log 4. It follows from the statements on spawn, on a step and on a host move. -/
def Obligations.EveryReachableStateMeetsInvariant : Prop :=
  ∀ (schedule : List Event),
    (∀ c image initial, Event.spawn c image initial ∈ schedule → image.length < 9223372036854775808) →
    ∀ s ∈ System.run schedule [], s.Inv

/-! The next pointer. -/

/-- The next pointer (40_machine_loop.md section 3): a step that leaves the machine running has held, or has moved `ptr` past the
instruction's words, or has taken a jump to its second operand; a pointer past the words is at most ADDR_MAX + 1; and from a negative
`ptr` the next fetch raises IndexFault (decision D24). `ptr` is a signed 64-bit register (decision D25), so that it holds some negative
value for ADDR_MAX + 1 is the model's reading of two rules that differ (log 4); the statement holds for every such value. -/
def Obligations.NextPointerPastTheTopIsNeverFetched : Prop :=
  (∀ (s t : State) (i : Instr), s.status = .running → s.accessible s.ptr.toInt →
    decode s.cfg (s.mem.read s.ptr.toInt.toNat) = .ok i → step s = .next t → t.status = .running →
    t = s ∨
    (s.ptr.toInt + (i.opcode.length : Int) ≤ addrMax + 1 ∧ t.movedTo (s.ptr.toInt + (i.opcode.length : Int))) ∨
    (∃ m1 m2, t.ptr = operandValue s 2 m2 ∧
      ((i = .jt m1 m2 ∧ operandValue s 1 m1 ≠ 0#64) ∨ (i = .jf m1 m2 ∧ operandValue s 1 m1 = 0#64)))) ∧
  (∀ t : State, t.status = .running → t.ptr.toInt < 0 →
    ∃ u, step t = .next u ∧ u.status = .faulted ∧
      u.fault = some { code := .indexFault, ptr := t.ptr, info := .value t.ptr.toInt })
end

