-- ==== Sys2Proof/Laws/Decode.lean ====
section
/-! SUPPORT. What each piece of the decoder answers, once: the fields of a word that decodes. -/

namespace Sys2Proof

/-- A bind answers exactly when its first part does and then its second. -/
theorem decode_bind_ok {ε α β : Type} {x : Except ε α} {k : α → Except ε β} {b : β} :
    (x >>= k) = .ok b ↔ ∃ a, x = .ok a ∧ k a = .ok b := by
  cases x <;> simp [bind, Except.bind]

theorem Opcode.number_of_ofNumber? {n : Nat} {op : Opcode} (h : Opcode.ofNumber? n = some op) : op.number = n := by
  simpa using List.find?_some h

theorem Opcode.ofNumber?_number (op : Opcode) : Opcode.ofNumber? op.number = some op := by cases op <;> rfl

theorem Mode.ofDigit?_eq_some {d : Nat} {m : Mode} : Mode.ofDigit? d = some m ↔ m.toDigit = d := by
  constructor
  · intro h
    simp only [Mode.ofDigit?] at h
    split at h
    · cases h; exact (‹d = 0›).symm
    · split at h
      · cases h; exact (‹d = 1›).symm
      · split at h
        · cases h; exact (‹d = 2›).symm
        · cases h
  · rintro rfl; cases m <;> rfl

theorem Mode.ofDigit?_eq_none {d : Nat} : Mode.ofDigit? d = none ↔ 2 < d := by
  simp only [Mode.ofDigit?]
  split
  · simp; omega
  · split
    · simp; omega
    · split <;> simp <;> omega

/-- A source parameter decodes to the mode of its digit. -/
theorem decodeSource_ok {M i : Nat} {m : Mode} : decodeSource M i = .ok m ↔ m.toDigit = digit M (i - 1) := by
  rw [← Mode.ofDigit?_eq_some]; unfold decodeSource
  cases Mode.ofDigit? (digit M (i - 1)) <;> simp

/-- A destination parameter decodes to the mode of its digit, which its parameter allows. -/
theorem decodeDest_ok {c : Config} {M i : Nat} {m : Mode} :
    decodeDest c M i = .ok m ↔ m.toDigit = digit M (i - 1) ∧ m.destOk c = true := by
  rw [← Mode.ofDigit?_eq_some]; unfold decodeDest
  cases Mode.ofDigit? (digit M (i - 1)) with
  | none => simp
  | some x =>
    simp only [Option.some.injEq]
    split
    · next hx =>
      constructor
      · intro h; cases h; exact ⟨rfl, hx⟩
      · rintro ⟨rfl, _⟩; rfl
    · next hx =>
      constructor
      · intro h; cases h
      · rintro ⟨rfl, h⟩; exact absurd h hx

theorem checkUnused_ok {c : Config} {M n : Nat} :
    checkUnused c M n = .ok () ↔ (c.unusedModeDigits = .fault → M / 10 ^ n = 0) := by
  unfold checkUnused
  split
  · next h => simp [h.1, -Nat.div_eq_zero_iff, h.2]
  · next h => simp only [true_iff]; intro h1; by_contra h2; exact h ⟨h1, h2⟩

end Sys2Proof
end

