-- ==== Sys2Proof/Laws/Memory.lean ====
section
/-! SUPPORT. The laws of the tape: what a read answers after growth and after a write, the length, and that every operation
keeps the canonical form. -/

namespace Sys2Proof.Machine

/-! Cells. -/

theorem Memory.lookup_filter_of_true (p : Cell → Bool) (a : Nat) (cs : List Cell)
    (h : ∀ c ∈ cs, c.1 = a → p c = true) : Memory.lookup a (cs.filter p) = Memory.lookup a cs := by
  induction cs with
  | nil => rfl
  | cons c cs ih =>
    have ih' := ih (fun d hd => h d (List.mem_cons_of_mem _ hd))
    by_cases hp : p c = true
    · simp [List.filter_cons_of_pos hp, Memory.lookup, ih']
    · have hne : c.1 ≠ a := fun e => hp (h c (List.mem_cons_self ..) e)
      simp [List.filter_cons_of_neg hp, Memory.lookup, hne, ih']

theorem Memory.lookup_of_absent (a : Nat) (cs : List Cell) (h : ∀ c ∈ cs, c.1 ≠ a) :
    Memory.lookup a cs = Memory.unlisted := by
  induction cs with
  | nil => rfl
  | cons c cs ih =>
    simp [Memory.lookup, h c (List.mem_cons_self ..), ih (fun d hd => h d (List.mem_cons_of_mem _ hd))]

theorem Memory.lookup_insertCell (a b : Nat) (v : Word) (cs : List Cell) (h : ∀ c ∈ cs, c.1 ≠ a) :
    Memory.lookup b (Memory.insertCell a v cs) = if b = a then v else Memory.lookup b cs := by
  induction cs with
  | nil =>
    by_cases hb : b = a
    · simp [Memory.insertCell, Memory.lookup, hb]
    · simp [Memory.insertCell, Memory.lookup, hb, Ne.symm hb]
  | cons c cs ih =>
    have hc := h c (List.mem_cons_self ..)
    have ih' := ih (fun d hd => h d (List.mem_cons_of_mem _ hd))
    unfold Memory.insertCell
    by_cases hb : b = a
    · subst hb
      split
      · simp [Memory.lookup]
      · simp [Memory.lookup, hc, ih']
    · split
      · simp [Memory.lookup, Ne.symm hb]
      · simp [Memory.lookup, ih', hb]

/-- Read after write, cell by cell. -/
theorem Memory.lookup_setCell (a b : Nat) (v : Word) (cs : List Cell) :
    Memory.lookup b (Memory.setCell a v cs) = if b = a then v else Memory.lookup b cs := by
  have habs : ∀ c ∈ cs.filter (fun c => decide (c.1 ≠ a)), c.1 ≠ a := by
    intro c hc; simpa using (List.mem_filter.mp hc).2
  have hrest : b ≠ a →
      Memory.lookup b (cs.filter (fun c => decide (c.1 ≠ a))) = Memory.lookup b cs := fun hb =>
    Memory.lookup_filter_of_true _ b cs (fun c _ e => by simpa [e] using hb)
  unfold Memory.setCell
  split
  · next hv =>
    by_cases hb : b = a
    · subst hb; simp only [Memory.lookup_of_absent _ _ habs, hv, if_true]
    · simp only [hrest hb, hb, if_false]
  · rw [Memory.lookup_insertCell _ _ _ _ habs]
    by_cases hb : b = a
    · simp only [hb, if_true]
    · simp only [hrest hb, hb, if_false]

/-! Growth. -/

@[simp] theorem Memory.growTo_len (m : Memory) (n : Nat) : (m.growTo n).len = max m.len n := by
  unfold Memory.growTo; split
  · simp only []; omega
  · omega

/-- Growth changes no read: the new cells hold 0 (R33). -/
@[simp] theorem Memory.read_growTo (m : Memory) (n b : Nat) : (m.growTo n).read b = m.read b := by
  unfold Memory.growTo; split
  · next h =>
    unfold Memory.read
    by_cases hb : b < m.len
    · have hbn : b < n := by omega
      simp only [hb, hbn, if_true]
      exact Memory.lookup_filter_of_true _ b _ (fun c _ e => by simpa [e] using hb)
    · simp only [hb, if_false]
      split
      · exact Memory.lookup_of_absent _ _ (fun c hc e => by
          have := (List.mem_filter.mp hc).2
          simp [e] at this; omega)
      · rfl
  · rfl

theorem Memory.growTo_of_le (m : Memory) (n : Nat) (h : n ≤ m.len) : m.growTo n = m := by
  simp [Memory.growTo, Nat.not_lt.mpr h]

/-- Growing twice is growing once, to the larger length. -/
@[simp] theorem Memory.growTo_growTo (m : Memory) (a b : Nat) : (m.growTo a).growTo b = m.growTo (max a b) := by
  by_cases ha : m.len < a
  · by_cases hb : a < b
    · have h1 : m.len < b := by omega
      have h2 : max a b = b := by omega
      simp only [Memory.growTo, ha, hb, h1, h2, if_true, List.filter_filter]
      congr 1
      apply List.filter_congr
      intro c _
      by_cases hc : c.1 < m.len
      · have : c.1 < a := by omega
        simp [hc, this]
      · simp [hc]
    · have h2 : max a b = a := by omega
      simp [Memory.growTo, ha, hb, h2]
  · by_cases hb : m.len < b
    · have h2 : m.len < max a b := by omega
      have h3 : max a b = b := by omega
      simp [Memory.growTo, ha, hb, h3]
    · have h2 : ¬ m.len < max a b := by omega
      simp only [Memory.growTo, ha, hb, h2, if_false]

/-! Writes. -/

@[simp] theorem Memory.write_len (m : Memory) (a : Nat) (v : Word) : (m.write a v).len = max m.len (a + 1) := by
  simp [Memory.write]

/-- Read after write: the written address gives the value written, every other address reads as before. -/
theorem Memory.read_write (m : Memory) (a b : Nat) (v : Word) :
    (m.write a v).read b = if b = a then v else m.read b := by
  have hg := Memory.read_growTo m (a + 1) b
  unfold Memory.read at hg ⊢
  simp only [Memory.write_len, Memory.growTo_len] at hg ⊢
  simp only [Memory.write, Memory.lookup_setCell]
  by_cases hb : b = a
  · subst hb
    have h1 : b < max m.len (b + 1) := by omega
    simp [h1]
  · simp only [hb, if_false]
    exact hg

@[simp] theorem Memory.read_write_same (m : Memory) (a : Nat) (v : Word) : (m.write a v).read a = v := by
  simp [Memory.read_write]

theorem Memory.read_write_other (m : Memory) (a b : Nat) (v : Word) (h : b ≠ a) :
    (m.write a v).read b = m.read b := by
  simp [Memory.read_write, h]

/-! The canonical form. -/

theorem Memory.cellsWf_weaken (len len' lo lo' : Nat) (cs : List Cell) (hl : lo' ≤ lo) (hn : len ≤ len')
    (h : Memory.cellsWf len lo cs = true) : Memory.cellsWf len' lo' cs = true := by
  induction cs generalizing lo lo' with
  | nil => rfl
  | cons c cs ih =>
    simp only [Memory.cellsWf, Bool.and_eq_true, decide_eq_true_eq] at h ⊢
    obtain ⟨⟨⟨h1, h2⟩, h3⟩, h4⟩ := h
    exact ⟨⟨⟨by omega, by omega⟩, h3⟩, ih _ _ (Nat.le_refl _) h4⟩

theorem Memory.cellsWf_filter (p : Cell → Bool) (len lo : Nat) (cs : List Cell)
    (h : Memory.cellsWf len lo cs = true) : Memory.cellsWf len lo (cs.filter p) = true := by
  induction cs generalizing lo with
  | nil => rfl
  | cons c cs ih =>
    simp only [Memory.cellsWf, Bool.and_eq_true, decide_eq_true_eq] at h
    obtain ⟨⟨⟨h1, h2⟩, h3⟩, h4⟩ := h
    by_cases hp : p c = true
    · rw [List.filter_cons_of_pos hp]
      simp only [Memory.cellsWf, Bool.and_eq_true, decide_eq_true_eq]
      exact ⟨⟨⟨h1, h2⟩, h3⟩, ih _ h4⟩
    · rw [List.filter_cons_of_neg hp]
      exact Memory.cellsWf_weaken _ _ _ _ _ (by omega) (Nat.le_refl _) (ih _ h4)

theorem Memory.cellsWf_insertCell (len lo a : Nat) (v : Word) (cs : List Cell)
    (h : Memory.cellsWf len lo cs = true) (hlo : lo ≤ a) (ha : a < len) (hv : v ≠ Memory.unlisted)
    (habs : ∀ c ∈ cs, c.1 ≠ a) : Memory.cellsWf len lo (Memory.insertCell a v cs) = true := by
  induction cs generalizing lo with
  | nil => simp [Memory.insertCell, Memory.cellsWf, hlo, ha, hv]
  | cons c cs ih =>
    have hc := habs c (List.mem_cons_self ..)
    simp only [Memory.cellsWf, Bool.and_eq_true, decide_eq_true_eq] at h
    obtain ⟨⟨⟨h1, h2⟩, h3⟩, h4⟩ := h
    unfold Memory.insertCell
    split
    · next hlt =>
      simp only [Memory.cellsWf, Bool.and_eq_true, decide_eq_true_eq]
      exact ⟨⟨⟨hlo, ha⟩, hv⟩, ⟨⟨by omega, h2⟩, h3⟩, h4⟩
    · simp only [Memory.cellsWf, Bool.and_eq_true, decide_eq_true_eq]
      exact ⟨⟨⟨h1, h2⟩, h3⟩, ih _ h4 (by omega) (fun d hd => habs d (List.mem_cons_of_mem _ hd))⟩

theorem Memory.growTo_wf (m : Memory) (n : Nat) (h : m.wf = true) : (m.growTo n).wf = true := by
  unfold Memory.growTo; split
  · next hlt =>
    exact Memory.cellsWf_weaken _ _ _ _ _ (Nat.le_refl _) (Nat.le_of_lt hlt) (Memory.cellsWf_filter _ _ _ _ h)
  · exact h

theorem Memory.write_wf (m : Memory) (a : Nat) (v : Word) (h : m.wf = true) : (m.write a v).wf = true := by
  have hg := Memory.growTo_wf m (a + 1) h
  have hf := Memory.cellsWf_filter (fun c => decide (c.1 ≠ a)) _ _ _ hg
  unfold Memory.wf
  simp only [Memory.write, Memory.setCell]
  split
  · exact hf
  · next hv =>
    exact Memory.cellsWf_insertCell _ _ _ _ _ hf (Nat.zero_le _) (by rw [Memory.growTo_len]; omega) hv
      (fun c hc => by simpa using (List.mem_filter.mp hc).2)

theorem Memory.writeWords_wf (ws : List Word) (m : Memory) (a : Nat) (h : m.wf = true) :
    (m.writeWords a ws).wf = true := by
  induction ws generalizing m a with
  | nil => exact h
  | cons w ws ih => exact ih _ _ (Memory.write_wf m a w h)

theorem Memory.writeWords_len (ws : List Word) (m : Memory) (a : Nat) :
    (m.writeWords a ws).len = max m.len (if ws = [] then 0 else a + ws.length) := by
  induction ws generalizing m a with
  | nil => simp [Memory.writeWords]
  | cons w ws ih => simp only [Memory.writeWords, ih, Memory.write_len]; simp; split <;> simp_all <;> omega

theorem Memory.read_writeWords (ws : List Word) (m : Memory) (a b : Nat) :
    (m.writeWords a ws).read b = if h : a ≤ b ∧ b < a + ws.length then ws[b - a] else m.read b := by
  induction ws generalizing m a with
  | nil => rw [dif_neg (by simp)]; rfl
  | cons w ws ih =>
    simp only [Memory.writeWords, ih, Memory.read_write]
    by_cases hb : b = a
    · subst hb; simp
    · by_cases hc : a + 1 ≤ b ∧ b < a + 1 + ws.length
      · have : b - a = (b - (a + 1)) + 1 := by omega
        rw [dif_pos hc, dif_pos (by simp; omega)]; simp [this]
      · rw [dif_neg hc, dif_neg (by simp; omega), if_neg hb]

theorem Memory.ofWords_wf (ws : List Word) : (Memory.ofWords ws).wf = true := Memory.writeWords_wf ws _ _ rfl

end Sys2Proof.Machine
end

