-- ==== Sys2Proof/Laws/State.lean ====
section
/-! SUPPORT. What each field is after each named update of State; after a state update no proof need unfold one. -/

namespace Sys2Proof.Machine

/-! Words of exact integers, and the next pointer. -/

theorem wordOfInt?_of_range {r : Int} (h : Word.minValue ≤ r ∧ r ≤ Word.maxValue) :
    wordOfInt? r = some (BitVec.ofInt 64 r) := by simp [wordOfInt?, h]

/-- The word of an in-range integer has that integer's value. -/
theorem toInt_ofInt_of_range {r : Int} (h : Word.minValue ≤ r ∧ r ≤ Word.maxValue) :
    (BitVec.ofInt 64 r).toInt = r := by
  simp only [Word.minValue, Word.maxValue] at h
  rw [BitVec.toInt_ofInt, Int.bmod_def]
  split <;> omega

theorem Word.toInt_range (w : Word) : Word.minValue ≤ w.toInt ∧ w.toInt ≤ Word.maxValue := by
  have h1 := BitVec.toInt_lt (x := w)
  have h2 := BitVec.le_toInt (x := w)
  simp only [Word.minValue, Word.maxValue]
  norm_num at h1 h2
  omega

theorem wordOfInt?_toInt (w : Word) : wordOfInt? w.toInt = some w := by
  rw [wordOfInt?_of_range (Word.toInt_range w), BitVec.ofInt_toInt]

theorem wordOfInt?_eq_some {r : Int} {w : Word} :
    wordOfInt? r = some w ↔ w.toInt = r := by
  constructor
  · intro h
    unfold wordOfInt? at h
    split at h
    · next hr => rw [← Option.some.inj h, toInt_ofInt_of_range hr]
    · cases h
  · rintro rfl; exact wordOfInt?_toInt w

/-- A next pointer in `Int64` is what `ptr` holds. -/
theorem nextPointer_of_range (p : Word) {next : Int} (h : Word.minValue ≤ next ∧ next ≤ Word.maxValue) :
    (nextPointer p next).toInt = next := by
  rw [nextPointer, wordOfInt?_of_range h]; exact toInt_ofInt_of_range h

@[simp] theorem nextPointer_toInt (p w : Word) : nextPointer p w.toInt = w := by rw [nextPointer, wordOfInt?_toInt]

/-- A next pointer outside `Int64` leaves a negative `ptr`, whatever the free value is. -/
theorem nextPointer_of_not_range (p : Word) {next : Int} (h : ¬ (Word.minValue ≤ next ∧ next ≤ Word.maxValue)) :
    (nextPointer p next).toInt < 0 := by
  rw [nextPointer, wordOfInt?, if_neg h]
  show (1#1 ++ Config.pastEndPointer p : BitVec 64).toInt < 0
  have hm : (1#1 ++ Config.pastEndPointer p : BitVec (1 + 63)).msb = true := by
    rw [BitVec.msb_append]; simp
  exact BitVec.toInt_neg_of_msb_true hm

section
variable (s t : State) (st : Status) (f : Raised) (m : Message) (next : Int)

@[simp] theorem State.terminate_ptr : (s.terminate st).ptr = s.ptr := rfl
@[simp] theorem State.terminate_rel : (s.terminate st).rel = s.rel := rfl
@[simp] theorem State.terminate_status : (s.terminate st).status = st := rfl
@[simp] theorem State.terminate_fault : (s.terminate st).fault = s.fault := rfl
@[simp] theorem State.terminate_mem : (s.terminate st).mem = s.mem := rfl
@[simp] theorem State.terminate_inq : (s.terminate st).inq = s.inq := rfl
@[simp] theorem State.terminate_inClosed : (s.terminate st).inClosed = s.inClosed := rfl
@[simp] theorem State.terminate_inReaderGone : (s.terminate st).inReaderGone = true := rfl
@[simp] theorem State.terminate_outq : (s.terminate st).outq = s.outq := rfl
@[simp] theorem State.terminate_outClosed : (s.terminate st).outClosed = true := rfl
@[simp] theorem State.terminate_outReaderGone : (s.terminate st).outReaderGone = s.outReaderGone := rfl
@[simp] theorem State.terminate_cfg : (s.terminate st).cfg = s.cfg := rfl

@[simp] theorem State.takeFault_ptr : (s.takeFault f).ptr = s.ptr := rfl
@[simp] theorem State.takeFault_rel : (s.takeFault f).rel = s.rel := rfl
@[simp] theorem State.takeFault_status : (s.takeFault f).status = .faulted := rfl
@[simp] theorem State.takeFault_fault : (s.takeFault f).fault = some { code := f.code, ptr := s.ptr, info := f.info } := rfl
@[simp] theorem State.takeFault_mem : (s.takeFault f).mem = s.mem := rfl
@[simp] theorem State.takeFault_inq : (s.takeFault f).inq = s.inq := rfl
@[simp] theorem State.takeFault_inClosed : (s.takeFault f).inClosed = s.inClosed := rfl
@[simp] theorem State.takeFault_inReaderGone : (s.takeFault f).inReaderGone = true := rfl
@[simp] theorem State.takeFault_outq : (s.takeFault f).outq = s.outq := rfl
@[simp] theorem State.takeFault_outClosed : (s.takeFault f).outClosed = true := rfl
@[simp] theorem State.takeFault_outReaderGone : (s.takeFault f).outReaderGone = s.outReaderGone := rfl
@[simp] theorem State.takeFault_cfg : (s.takeFault f).cfg = s.cfg := rfl

@[simp] theorem State.send_ptr : (s.send m).ptr = s.ptr := rfl
@[simp] theorem State.send_rel : (s.send m).rel = s.rel := rfl
@[simp] theorem State.send_status : (s.send m).status = s.status := rfl
@[simp] theorem State.send_fault : (s.send m).fault = s.fault := rfl
@[simp] theorem State.send_mem : (s.send m).mem = s.mem := rfl
@[simp] theorem State.send_inq : (s.send m).inq = s.inq := rfl
@[simp] theorem State.send_inClosed : (s.send m).inClosed = s.inClosed := rfl
@[simp] theorem State.send_inReaderGone : (s.send m).inReaderGone = s.inReaderGone := rfl
@[simp] theorem State.send_outq : (s.send m).outq = s.outq ++ [m] := rfl
@[simp] theorem State.send_outClosed : (s.send m).outClosed = s.outClosed := rfl
@[simp] theorem State.send_outReaderGone : (s.send m).outReaderGone = s.outReaderGone := rfl
@[simp] theorem State.send_cfg : (s.send m).cfg = s.cfg := rfl

@[simp] theorem State.advance_rel : (t.advance next).rel = t.rel := by unfold State.advance; split <;> rfl
@[simp] theorem State.advance_fault : (t.advance next).fault = t.fault := by unfold State.advance; split <;> rfl
@[simp] theorem State.advance_mem : (t.advance next).mem = t.mem := by unfold State.advance; split <;> rfl
@[simp] theorem State.advance_inq : (t.advance next).inq = t.inq := by unfold State.advance; split <;> rfl
@[simp] theorem State.advance_inClosed : (t.advance next).inClosed = t.inClosed := by unfold State.advance; split <;> rfl
@[simp] theorem State.advance_outq : (t.advance next).outq = t.outq := by unfold State.advance; split <;> rfl
@[simp] theorem State.advance_outReaderGone : (t.advance next).outReaderGone = t.outReaderGone := by unfold State.advance; split <;> rfl
@[simp] theorem State.advance_cfg : (t.advance next).cfg = t.cfg := by unfold State.advance; split <;> rfl

@[simp] theorem State.advance_ptr : (t.advance next).ptr = nextPointer t.ptr next := by
  unfold State.advance; split
  · next h => rw [h, nextPointer_toInt]; rfl
  · rfl

theorem State.advance_self : t.advance t.ptr.toInt = t.terminate .halted := by simp [State.advance]

theorem State.advance_of_ne (h : next ≠ t.ptr.toInt) : t.advance next = { t with ptr := nextPointer t.ptr next } := by
  simp [State.advance, h]

/-- A next pointer that is a word, as a jump's is. -/
theorem State.advance_word (w : Word) (h : w ≠ t.ptr) : t.advance w.toInt = { t with ptr := w } := by
  rw [State.advance_of_ne t _ (fun e => h (BitVec.eq_of_toInt_eq e)), nextPointer_toInt]

end

@[simp] theorem State.reset_ptr : State.reset.ptr = 0#64 := rfl
@[simp] theorem State.reset_rel : State.reset.rel = 0 := rfl
@[simp] theorem State.reset_status : State.reset.status = .running := rfl
@[simp] theorem State.reset_fault : State.reset.fault = none := rfl
@[simp] theorem State.reset_mem : State.reset.mem = { cells := [], len := 0 } := rfl
@[simp] theorem State.reset_inq : State.reset.inq = [] := rfl
@[simp] theorem State.reset_inClosed : State.reset.inClosed = false := rfl
@[simp] theorem State.reset_inReaderGone : State.reset.inReaderGone = false := rfl
@[simp] theorem State.reset_outq : State.reset.outq = [] := rfl
@[simp] theorem State.reset_outClosed : State.reset.outClosed = false := rfl
@[simp] theorem State.reset_outReaderGone : State.reset.outReaderGone = false := rfl
@[simp] theorem State.reset_cfg : State.reset.cfg = Config.standard := rfl

end Sys2Proof.Machine
end

