-- ==== Sys2Proof/Laws/Operands.lean ====
section
/-! SUPPORT. Everything the memory controller and the addressing resolver can answer, said once: each operation as an
equation over `accessible` and `resolvable`, on a tape the earlier calls of the step have grown. -/

namespace Sys2Proof.Machine

/-- A sequence of calls succeeds when each does. -/
theorem except_bind_ok {α β : Type} {x : Except Raised α} {k : α → Except Raised β} {b : β} :
    (x >>= k) = .ok b ↔ ∃ a, x = .ok a ∧ k a = .ok b := by
  cases x with
  | error e => simp [bind, Except.bind]
  | ok a => simp [bind, Except.bind]

theorem fitsCapacity_mono {c : Config} {a b : Nat} (h : a ≤ b) (hb : fitsCapacity c b = true) :
    fitsCapacity c a = true := by
  unfold fitsCapacity at *
  cases hc : c.memCapacity with
  | none => rfl
  | some cap => simp only [hc, decide_eq_true_eq] at *; omega

theorem State.growable_mono {s : State} {a b : Nat} (h : a ≤ b) (hb : s.growable b) : s.growable a := by
  rcases hb with hb | hb
  · exact .inl (by omega)
  · exact .inr (fitsCapacity_mono h hb)

theorem State.growable_max {s : State} {a b : Nat} (ha : s.growable a) (hb : s.growable b) : s.growable (max a b) := by
  rcases Nat.le_total a b with h | h
  · rwa [Nat.max_eq_right h]
  · rwa [Nat.max_eq_left h]

theorem State.growable_zero (s : State) : s.growable 0 := .inl (Nat.zero_le _)

theorem checkAddr_eq (a : Int) :
    checkAddr a = if 0 ≤ a ∧ a ≤ addrMax then .ok a.toNat else .error { code := .indexFault, info := .value a } := rfl

/-- `Extend` on a grown tape. -/
theorem extend_growTo (s : State) (n a : Nat) (hn : s.growable n) :
    extend s.cfg (s.mem.growTo n) a =
      if s.growable (a + 1) then .ok (s.mem.growTo (max n (a + 1)))
      else .error { code := .capacityFault, info := .value (a : Int) } := by
  unfold extend
  rw [Memory.growTo_len]
  by_cases h1 : a < max s.mem.len n
  · have hg : s.growable (a + 1) := by
      rcases Nat.lt_or_ge a s.mem.len with h | h
      · exact .inl h
      · exact State.growable_mono (by omega) hn
    rw [if_pos h1, if_pos hg]
    rcases Nat.lt_or_ge a n with h | h
    · rw [Nat.max_eq_left (by omega)]
    · congr 1
      have hlen : a < s.mem.len := by omega
      rw [Memory.growTo_of_le _ _ (show n ≤ s.mem.len by omega),
        Memory.growTo_of_le _ _ (show max n (a + 1) ≤ s.mem.len by omega)]
  · rw [if_neg h1]
    by_cases hf : fitsCapacity s.cfg (a + 1) = true
    · rw [if_pos hf, if_pos (Or.inr hf), Memory.growTo_growTo]
    · have hg : ¬ s.growable (a + 1) := by
        rintro (h | h)
        · omega
        · exact hf h
      rw [if_neg hf, if_neg hg]

/-- `CheckAddr` and then `Extend`: they pass exactly when the address is accessible. -/
theorem check_extend_growTo (s : State) (n : Nat) (a : Int) (hn : s.growable n) :
    (checkAddr a >>= fun k => extend s.cfg (s.mem.growTo n) k) =
      if s.accessible a then .ok (s.mem.growTo (max n (a.toNat + 1))) else .error (addressFault a) := by
  by_cases hr : 0 ≤ a ∧ a ≤ addrMax
  · have hc : checkAddr a = .ok a.toNat := by rw [checkAddr_eq, if_pos hr]
    rw [hc]
    show extend s.cfg (s.mem.growTo n) a.toNat = _
    rw [extend_growTo _ _ _ hn]
    by_cases hg : s.growable (a.toNat + 1)
    · rw [if_pos hg, if_pos ⟨hr.1, hr.2, hg⟩]
    · rw [if_neg hg, if_neg (fun h => hg h.2.2), addressFault, if_pos hr, Int.toNat_of_nonneg hr.1]
  · have hc : checkAddr a = .error { code := .indexFault, info := .value a } := by rw [checkAddr_eq, if_neg hr]
    rw [hc, if_neg (fun h => hr ⟨h.1, h.2.1⟩), addressFault, if_neg hr]
    rfl

/-- `MemRead` on a grown tape: the word of the tape before the step. -/
theorem memRead_growTo (s : State) (n : Nat) (a : Int) (hn : s.growable n) :
    memRead s.cfg (s.mem.growTo n) a =
      if s.accessible a then .ok (s.mem.read a.toNat, s.mem.growTo (max n (a.toNat + 1))) else .error (addressFault a) := by
  have h := check_extend_growTo s n a hn
  unfold memRead
  by_cases hr : 0 ≤ a ∧ a ≤ addrMax
  · have hc : checkAddr a = .ok a.toNat := by rw [checkAddr_eq, if_pos hr]
    rw [hc] at h ⊢
    change extend s.cfg (s.mem.growTo n) a.toNat = _ at h
    show (extend s.cfg (s.mem.growTo n) a.toNat >>= fun m' => _) = _
    rw [h]
    split
    · simp [bind, Except.bind, pure, Except.pure]
    · rfl
  · have hc : checkAddr a = .error { code := .indexFault, info := .value a } := by rw [checkAddr_eq, if_neg hr]
    rw [hc, if_neg (fun h => hr ⟨h.1, h.2.1⟩), addressFault, if_neg hr]
    rfl

/-- `MemWrite` on a grown tape. -/
theorem memWrite_growTo (s : State) (n : Nat) (a : Int) (v : Word) (hn : s.growable n) :
    memWrite s.cfg (s.mem.growTo n) a v =
      if s.accessible a then .ok ((s.mem.growTo (max n (a.toNat + 1))).write a.toNat v) else .error (addressFault a) := by
  have h := check_extend_growTo s n a hn
  unfold memWrite
  by_cases hr : 0 ≤ a ∧ a ≤ addrMax
  · have hc : checkAddr a = .ok a.toNat := by rw [checkAddr_eq, if_pos hr]
    rw [hc] at h ⊢
    change extend s.cfg (s.mem.growTo n) a.toNat = _ at h
    show (extend s.cfg (s.mem.growTo n) a.toNat >>= fun m' => _) = _
    rw [h]
    split
    · simp [bind, Except.bind, pure, Except.pure]
    · rfl
  · have hc : checkAddr a = .error { code := .indexFault, info := .value a } := by rw [checkAddr_eq, if_neg hr]
    rw [hc, if_neg (fun h => hr ⟨h.1, h.2.1⟩), addressFault, if_neg hr]
    rfl

/-- Growth does not change an effective address. -/
theorem addressIn_growTo (s : State) (n i : Nat) (m : Mode) :
    addressIn s (s.mem.growTo n) i m = effectiveAddress s i m := by
  cases m <;> simp [effectiveAddress, addressIn]

/-- `Resolve` on a grown tape. -/
theorem resolve_growTo (s : State) (n i : Nat) (m : Mode) (hn : s.growable n) :
    resolve s (s.mem.growTo n) i m =
      if s.resolvable i m then .ok (effectiveAddress s i m, s.mem.growTo (max n (s.reach i m)))
      else .error (resolveFault s i m) := by
  have hslot := check_extend_growTo s n (slotAddress s i) hn
  unfold resolve resolveFault
  by_cases hs : s.accessible (slotAddress s i)
  · have hc : checkAddr (slotAddress s i) = .ok (slotAddress s i).toNat := by
      rw [checkAddr_eq, if_pos ⟨hs.1, hs.2.1⟩]
    rw [hc, if_pos hs] at hslot
    change extend s.cfg (s.mem.growTo n) _ = _ at hslot
    have hea := check_extend_growTo s (max n ((slotAddress s i).toNat + 1)) (effectiveAddress s i m)
      (State.growable_max hn hs.2.2)
    rw [hc, if_pos hs]
    simp only [bind, Except.bind, hslot, addressIn_growTo] at hea ⊢
    by_cases he : s.accessible (effectiveAddress s i m)
    · have hc2 : checkAddr (effectiveAddress s i m) = .ok (effectiveAddress s i m).toNat := by
        rw [checkAddr_eq, if_pos ⟨he.1, he.2.1⟩]
      rw [if_pos he, hc2] at hea
      rw [if_pos ⟨hs, he⟩, hc2]
      simp only [hea, pure, Except.pure, State.reach, Nat.max_assoc]
    · rw [if_neg he] at hea
      rw [if_neg (fun h => he h.2)]
      cases hc2 : checkAddr (effectiveAddress s i m) with
      | error e => rw [hc2] at hea; simpa using hea
      | ok k => rw [hc2] at hea; simp only at hea; simp only [hea]
  · rw [if_neg hs] at hslot ⊢
    rw [if_neg (fun h => hs h.1)]
    cases hc : checkAddr (slotAddress s i) with
    | error e => rw [hc] at hslot; simpa [bind, Except.bind] using hslot
    | ok k =>
      rw [hc] at hslot
      simp only [bind, Except.bind] at hslot ⊢
      simp only [hslot]

theorem growTo_zero (m : Memory) : m.growTo 0 = m := Memory.growTo_of_le _ _ (Nat.zero_le _)

/-- `Resolve` on the tape of the state before the step. -/
theorem resolve_start (s : State) (i : Nat) (m : Mode) :
    resolve s s.mem i m =
      if s.resolvable i m then .ok (effectiveAddress s i m, s.mem.growTo (s.reach i m))
      else .error (resolveFault s i m) := by
  have h := resolve_growTo s 0 i m s.growable_zero
  rwa [growTo_zero, Nat.zero_max] at h

theorem State.resolvable_growable {s : State} {i : Nat} {m : Mode} (h : s.resolvable i m) : s.growable (s.reach i m) :=
  State.growable_max h.1.2.2 h.2.2.2

theorem State.address_le_reach (s : State) (i : Nat) (m : Mode) : (effectiveAddress s i m).toNat + 1 ≤ s.reach i m :=
  Nat.le_max_right _ _

/-- Reading a resolved parameter grows the tape no further (R42). -/
theorem memRead_resolved (s : State) (n i : Nat) (m : Mode) (hn : s.growable n) (h : s.resolvable i m)
    (hr : s.reach i m ≤ n) :
    memRead s.cfg (s.mem.growTo n) (effectiveAddress s i m) = .ok (operandValue s i m, s.mem.growTo n) := by
  have := s.address_le_reach i m
  rw [memRead_growTo s n _ hn, if_pos h.2, Nat.max_eq_left (by omega)]
  rfl

/-- One source parameter: its value, or the fault of its resolution. -/
theorem oneSource_eq (s : State) (m1 : Mode) :
    oneSource s m1 =
      if s.resolvable 1 m1 then .ok (operandValue s 1 m1, s.mem.growTo (s.reach 1 m1))
      else .error (resolveFault s 1 m1) := by
  unfold oneSource
  rw [resolve_start]
  split
  · next h =>
    simp only [bind, Except.bind]
    exact memRead_resolved s _ 1 m1 (State.resolvable_growable h) h (Nat.le_refl _)
  · rfl

/-- Two source parameters: their values, or the first fault in order. -/
theorem twoSources_eq (s : State) (m1 m2 : Mode) :
    twoSources s m1 m2 =
      if s.resolvable 1 m1 then
        if s.resolvable 2 m2 then
          .ok (operandValue s 1 m1, operandValue s 2 m2, s.mem.growTo (max (s.reach 1 m1) (s.reach 2 m2)))
        else .error (resolveFault s 2 m2)
      else .error (resolveFault s 1 m1) := by
  unfold twoSources
  rw [resolve_start]
  by_cases h1 : s.resolvable 1 m1
  · have g1 := State.resolvable_growable h1
    have e2 := resolve_growTo s _ 2 m2 g1
    simp only [if_pos h1, bind, Except.bind]
    by_cases h2 : s.resolvable 2 m2
    · have g2 := State.growable_max g1 (State.resolvable_growable h2)
      simp only [if_pos h2] at e2 ⊢
      simp only [e2, memRead_resolved s _ 1 m1 g2 h1 (Nat.le_max_left _ _),
        memRead_resolved s _ 2 m2 g2 h2 (Nat.le_max_right _ _), pure, Except.pure]
    · simp only [if_neg h2] at e2 ⊢
      simp only [e2]
  · simp only [if_neg h1]; rfl

/-- Two source parameters and a destination: values and destination address, or the first fault in order. -/
theorem twoSourcesAndDest_eq (s : State) (m1 m2 m3 : Mode) :
    twoSourcesAndDest s m1 m2 m3 =
      if s.resolvable 1 m1 then
        if s.resolvable 2 m2 then
          if s.resolvable 3 m3 then
            .ok (operandValue s 1 m1, operandValue s 2 m2, effectiveAddress s 3 m3,
              s.mem.growTo (max (max (s.reach 1 m1) (s.reach 2 m2)) (s.reach 3 m3)))
          else .error (resolveFault s 3 m3)
        else .error (resolveFault s 2 m2)
      else .error (resolveFault s 1 m1) := by
  unfold twoSourcesAndDest
  rw [resolve_start]
  by_cases h1 : s.resolvable 1 m1
  · have g1 := State.resolvable_growable h1
    have e2 := resolve_growTo s _ 2 m2 g1
    simp only [if_pos h1, bind, Except.bind]
    by_cases h2 : s.resolvable 2 m2
    · have g2 := State.growable_max g1 (State.resolvable_growable h2)
      have e3 := resolve_growTo s _ 3 m3 g2
      simp only [if_pos h2] at e2 ⊢
      by_cases h3 : s.resolvable 3 m3
      · have g3 := State.growable_max g2 (State.resolvable_growable h3)
        simp only [if_pos h3] at e3 ⊢
        simp only [e2, e3, memRead_resolved s _ 1 m1 g3 h1 (by omega), memRead_resolved s _ 2 m2 g3 h2 (by omega), pure,
          Except.pure]
      · simp only [if_neg h3] at e3 ⊢
        simp only [e2, e3]
    · simp only [if_neg h2] at e2 ⊢
      simp only [e2]
  · simp only [if_neg h1]; rfl

end Sys2Proof.Machine
end

