-- ==== Sys2Proof/Laws/Exec.lean ====
section
/-! SUPPORT. Everything the body of each instruction shape can answer, the end of a step, and fetch: one equation or
inversion lemma per shared operation. -/

namespace Sys2Proof.Machine

/-! The range check. -/

theorem checkRange_of_range {r : Int} (h : Word.minValue ≤ r ∧ r ≤ Word.maxValue) :
    checkRange r = .ok (BitVec.ofInt 64 r) := by simp [checkRange, wordOfInt?_of_range h]

theorem checkRange_of_not_range {r : Int} (h : ¬ (Word.minValue ≤ r ∧ r ≤ Word.maxValue)) :
    checkRange r = .error { code := .overflowFault, info := .value r } := by simp [checkRange, wordOfInt?, h]

/-! The bodies. -/

/-- The body of ADD, MUL, LT and EQ, whatever the operands and the state. -/
theorem storeOfTwo_eq (f : Word → Word → Except Raised Word) (m1 m2 m3 : Mode) (s : State) :
    storeOfTwo f m1 m2 m3 s =
      if s.resolvable 1 m1 then
        if s.resolvable 2 m2 then
          if s.resolvable 3 m3 then
            match f (operandValue s 1 m1) (operandValue s 2 m2) with
            | .error e => .error e
            | .ok r =>
              .ok (.done { s with mem := (s.mem.growTo (s.reach3 m1 m2 m3)).write (effectiveAddress s 3 m3).toNat r }
                (s.ptr.toInt + 4))
          else .error (resolveFault s 3 m3)
        else .error (resolveFault s 2 m2)
      else .error (resolveFault s 1 m1) := by
  unfold storeOfTwo
  rw [twoSourcesAndDest_eq]
  by_cases h1 : s.resolvable 1 m1
  · by_cases h2 : s.resolvable 2 m2
    · by_cases h3 : s.resolvable 3 m3
      · simp only [if_pos h1, if_pos h2, if_pos h3, bind, Except.bind]
        cases f (operandValue s 1 m1) (operandValue s 2 m2) with
        | error e => rfl
        | ok r =>
          have g := State.growable_max (State.growable_max (State.resolvable_growable h1) (State.resolvable_growable h2))
            (State.resolvable_growable h3)
          have hle := s.address_le_reach 3 m3
          simp only [memWrite_growTo s _ _ r g, if_pos h3.2, pure, Except.pure, State.reach3]
          rw [Nat.max_eq_left (show (effectiveAddress s 3 m3).toNat + 1 ≤ _ by omega)]
      · simp only [if_pos h1, if_pos h2, if_neg h3]; rfl
    · simp only [if_pos h1, if_neg h2]; rfl
  · simp only [if_neg h1]; rfl

/-- The body of JT and JF. -/
theorem jumpOn_eq (taken : Word → Bool) (m1 m2 : Mode) (s : State) :
    jumpOn taken m1 m2 s =
      if s.resolvable 1 m1 then
        if s.resolvable 2 m2 then
          .ok (.done { s with mem := s.mem.growTo (max (s.reach 1 m1) (s.reach 2 m2)) }
            (if taken (operandValue s 1 m1) then (operandValue s 2 m2).toInt else s.ptr.toInt + 3))
        else .error (resolveFault s 2 m2)
      else .error (resolveFault s 1 m1) := by
  unfold jumpOn
  rw [twoSources_eq]
  by_cases h1 : s.resolvable 1 m1
  · by_cases h2 : s.resolvable 2 m2
    · simp only [if_pos h1, if_pos h2]; rfl
    · simp only [if_pos h1, if_neg h2]; rfl
  · simp only [if_neg h1]; rfl

/-- The body of ARB. -/
theorem arbBody_eq (m1 : Mode) (s : State) :
    arbBody m1 s =
      if s.resolvable 1 m1 then
        match checkRange (sumOf s.rel (operandValue s 1 m1)) with
        | .error e => .error e
        | .ok r => .ok (.done { s with mem := s.mem.growTo (s.reach 1 m1), rel := r } (s.ptr.toInt + 2))
      else .error (resolveFault s 1 m1) := by
  unfold arbBody
  rw [oneSource_eq]
  by_cases h1 : s.resolvable 1 m1
  · simp only [if_pos h1, bind, Except.bind]
    cases checkRange (sumOf s.rel (operandValue s 1 m1)) <;> rfl
  · simp only [if_neg h1]; rfl

/-- The body of OUT. -/
theorem outBody_eq (m1 : Mode) (s : State) :
    outBody m1 s =
      if s.resolvable 1 m1 then
        if s.outReaderGone = true then
          match s.cfg.outputClosed with
          | .fault => .error { code := .outputClosed, info := .value (operandValue s 1 m1).toInt }
          | .discard => .ok (.done { s with mem := s.mem.growTo (s.reach 1 m1) } (s.ptr.toInt + 2))
        else if isFull s.cfg.outDepth s.outq = true then .ok .hold
        else
          .ok (.done { s with mem := s.mem.growTo (s.reach 1 m1), outq := s.outq ++ [dec (operandValue s 1 m1)] }
            (s.ptr.toInt + 2))
      else .error (resolveFault s 1 m1) := by
  unfold outBody
  rw [oneSource_eq]
  by_cases h1 : s.resolvable 1 m1
  · simp only [if_pos h1, bind, Except.bind]
    cases s.outReaderGone
    · cases isFull s.cfg.outDepth s.outq <;> rfl
    · cases s.cfg.outputClosed <;> rfl
  · simp only [if_neg h1]; rfl

/-- The body of IN. -/
theorem inBody_eq (m1 : Mode) (s : State) :
    inBody m1 s =
      if s.resolvable 1 m1 then
        match receive s with
        | .hold => .ok .hold
        | .endOfInput => .ok .endOfInput
        | .message msg rest =>
          match parseInt msg with
          | .error e => .error e
          | .ok v =>
            .ok (.done { s with mem := (s.mem.growTo (s.reach 1 m1)).write (effectiveAddress s 1 m1).toNat v, inq := rest }
              (s.ptr.toInt + 2))
      else .error (resolveFault s 1 m1) := by
  unfold inBody
  rw [resolve_start]
  by_cases h1 : s.resolvable 1 m1
  · simp only [if_pos h1, bind, Except.bind]
    cases receive s with
    | hold => rfl
    | endOfInput => rfl
    | message msg rest =>
      simp only []
      cases parseInt msg with
      | error e => rfl
      | ok v =>
        have g := State.resolvable_growable h1
        have hle := s.address_le_reach 1 m1
        simp only [memWrite_growTo s _ _ v g, if_pos h1.2, pure, Except.pure]
        rw [Nat.max_eq_left (show (effectiveAddress s 1 m1).toNat + 1 ≤ _ by omega)]
  · simp only [if_neg h1]; rfl

/-! The end of a step. -/

@[simp] theorem commit_error (s : State) (f : Raised) : commit s (.error f) = .next (s.takeFault f) := rfl

@[simp] theorem commit_hold (s : State) : commit s (.ok .hold) = .next s := rfl

@[simp] theorem commit_endOfInput (s : State) : commit s (.ok .endOfInput) = .next (s.terminate .inputClosed) := rfl

@[simp] theorem commit_done (s t : State) (next : Int) : commit s (.ok (.done t next)) = .next (t.advance next) := rfl

/-- What an instruction's body comes to, as data: `exec` is its commit. -/
def body (i : Instr) (s : State) : Except Raised Effect :=
  match i with
  | .add m1 m2 m3 => storeOfTwo (fun x y => checkRange (sumOf x y)) m1 m2 m3 s
  | .mul m1 m2 m3 => storeOfTwo (fun x y => checkRange (productOf x y)) m1 m2 m3 s
  | .inp m1 => inBody m1 s
  | .out m1 => outBody m1 s
  | .jt m1 m2 => jumpOn conditionTrue m1 m2 s
  | .jf m1 m2 => jumpOn conditionFalse m1 m2 s
  | .lt m1 m2 m3 => storeOfTwo (fun x y => .ok (boolWord (lessThan x y))) m1 m2 m3 s
  | .eq m1 m2 m3 => storeOfTwo (fun x y => .ok (boolWord (equalTo x y))) m1 m2 m3 s
  | .arb m1 => arbBody m1 s
  | .halt => .ok (.done s s.ptr.toInt)

theorem exec_eq_commit (i : Instr) (s : State) : exec i s = commit s (body i s) := by cases i <;> rfl

/-- Everything a step's end can answer. -/
theorem commit_cases {s t : State} {b : Except Raised Effect} (h : commit s b = .next t) :
    (∃ f, b = .error f ∧ t = s.takeFault f) ∨ (b = .ok .hold ∧ t = s) ∨
      (b = .ok .endOfInput ∧ t = s.terminate .inputClosed) ∨
      (∃ u next, b = .ok (.done u next) ∧ t = u.advance next) := by
  cases b with
  | error f => exact .inl ⟨f, rfl, by simpa using h.symm⟩
  | ok e =>
    cases e with
    | hold => exact .inr (.inl ⟨rfl, by simpa using h.symm⟩)
    | endOfInput => exact .inr (.inr (.inl ⟨rfl, by simpa using h.symm⟩))
    | done u next => exact .inr (.inr (.inr ⟨u, next, rfl, by simpa using h.symm⟩))

/-- Every instruction answers a next state, whatever the state: faults are taken, holds make no move. -/
theorem exec_answers (i : Instr) (s : State) : ∃ t, exec i s = .next t := by
  rw [exec_eq_commit]
  cases body i s with
  | error f => exact ⟨_, rfl⟩
  | ok e => cases e <;> exact ⟨_, rfl⟩

/-! Fetch and step. -/

/-- Fetch and decode: the word at `ptr`, when `ptr` is accessible. -/
theorem fetchInstr_eq (s : State) :
    fetchInstr s =
      if s.accessible s.ptr.toInt then
        match decode s.cfg (s.mem.read s.ptr.toInt.toNat) with
        | .ok i => .ok i
        | .error f => .error (decodeRaised f (s.mem.read s.ptr.toInt.toNat))
      else .error (addressFault s.ptr.toInt) := by
  have h := memRead_growTo s 0 s.ptr.toInt s.growable_zero
  rw [growTo_zero] at h
  unfold fetchInstr
  rw [h]
  split
  · simp only [bind, Except.bind]
    cases decode s.cfg (s.mem.read s.ptr.toInt.toNat) <;> rfl
  · rfl

theorem step_running {s : State} (h : s.status = .running) :
    step s = runFetched (fun i => exec i s) s (fetchInstr s) := by simp [step, h]

theorem step_ended {s : State} (h : s.status ≠ .running) : step s = .next s := by
  unfold step
  cases hs : s.status <;> simp_all

/-- Everything a step can do: nothing when the machine has ended; else take the fault of its fetch or decode, or run the
instruction it fetched. -/
theorem step_cases {s t : State} (h : step s = .next t) :
    (s.status ≠ .running ∧ t = s) ∨
      (s.status = .running ∧ ∃ f, fetchInstr s = .error f ∧ t = s.takeFault f) ∨
      (s.status = .running ∧ ∃ i, fetchInstr s = .ok i ∧ exec i s = .next t) := by
  by_cases hs : s.status = .running
  · rw [step_running hs] at h
    cases hf : fetchInstr s with
    | error f => rw [hf] at h; exact .inr (.inl ⟨hs, f, rfl, by simpa [runFetched] using h.symm⟩)
    | ok i => rw [hf] at h; exact .inr (.inr ⟨hs, i, rfl, h⟩)
  · rw [step_ended hs] at h
    exact .inl ⟨hs, by simpa using h.symm⟩

/-- A fetch that decodes has not grown the tape: above the tape the word is 0, which does not decode. -/
theorem fetch_ok_below_len {s : State} {i : Instr} (h : fetchInstr s = .ok i) : s.ptr.toInt.toNat < s.mem.len := by
  rw [fetchInstr_eq] at h
  split at h
  · by_contra hlen
    have hz : s.mem.read s.ptr.toInt.toNat = 0#64 := by simp [Memory.read, hlen, Memory.unlisted]
    rw [hz] at h
    have hd : decode s.cfg 0#64 = .error .badOpcode := by
      have h0 : (0#64 : BitVec 64).toInt = 0 := by decide
      have hn : Opcode.ofNumber? (0 % 100) = none := by decide
      simp [decode, decodeNumber, h0, hn]
    rw [hd] at h
    cases h
  · cases h

end Sys2Proof.Machine
end

