-- ==== Sys2Proof/Laws/Frame.lean ====
section
/-! SUPPORT. What the bodies of the instructions leave unchanged, said once, and the shapes of the tapes they leave. -/

namespace Sys2Proof.Machine

/-- A next pointer away from the starting one is not a halt. -/
theorem State.advance_by (t : State) (k p : Int) (hp : p = t.ptr.toInt + k) (hk : k ≠ 0) :
    t.advance p = { t with ptr := nextPointer t.ptr p } :=
  State.advance_of_ne _ _ (by omega)

/-- A next pointer that is not below the least word is moved to. -/
theorem State.movedTo_of_ptr {t : State} {p : Word} {next : Int} (hp : t.ptr = nextPointer p next)
    (h : Word.minValue ≤ next) : t.movedTo next := by
  unfold State.movedTo
  rw [hp]
  refine ⟨fun hn => nextPointer_of_range p ⟨h, hn⟩, fun hn => nextPointer_of_not_range p (fun hr => ?_)⟩
  simp only [addrMax, Word.maxValue] at hn hr
  omega

theorem Memory.onlyGrows_growTo (m : Memory) (n : Nat) : m.onlyGrows (m.growTo n) n := ⟨by simp, by simp⟩

theorem Memory.stores_write (m : Memory) (n a : Nat) (v : Word) (h : a + 1 ≤ n) :
    m.stores ((m.growTo n).write a v) n a v :=
  ⟨by simp only [Memory.write_len, Memory.growTo_len]; omega, fun b => by simp [Memory.read_write]⟩

theorem Word.toInt_eq_zero (w : Word) : BitVec.toInt w = 0 ↔ w = 0#64 := by
  constructor
  · intro h; apply BitVec.eq_of_toInt_eq; simpa using h
  · rintro rfl; rfl

theorem conditionTrue_eq (w : Word) : conditionTrue w = decide (w ≠ 0#64) := by simp [conditionTrue, Word.toInt_eq_zero]

theorem conditionFalse_eq (w : Word) : conditionFalse w = decide (w = 0#64) := by simp [conditionFalse, Word.toInt_eq_zero]

theorem boolWord_toInt (p : Prop) [Decidable p] : (boolWord (decide p)).toInt = if p then 1 else 0 := by
  by_cases h : p <;> simp [boolWord, h]

theorem checkRange_ok {r : Int} {w : Word} (h : checkRange r = .ok w) : w.toInt = r := by
  unfold checkRange at h
  cases hw : wordOfInt? r with
  | none => rw [hw] at h; cases h
  | some v => rw [hw] at h; cases h; exact wordOfInt?_eq_some.mp hw

theorem parseInt_ok {m : Message} {w : Word} : parseInt m = .ok w ↔ parseInt? m = some w := by
  unfold parseInt
  cases parseInt? m <;> simp

/-- What an instruction that completes has done: the tape grew within reach and holds at most one new word; `rel` only by
ARB; `inq` only by IN; `outq` only by OUT; the next pointer and the address of the slot before it. -/
inductive Wrote (s : State) : Instr → State → Int → Prop where
  | store {i : Instr} {m1 m2 m3 : Mode} {f : Word → Word → Except Raised Word} {r : Word}
      (hi : (i = .add m1 m2 m3 ∧ f = fun x y => checkRange (sumOf x y)) ∨
        (i = .mul m1 m2 m3 ∧ f = fun x y => checkRange (productOf x y)) ∨
        (i = .lt m1 m2 m3 ∧ f = fun x y => .ok (boolWord (lessThan x y))) ∨
        (i = .eq m1 m2 m3 ∧ f = fun x y => .ok (boolWord (equalTo x y))))
      (h1 : s.resolvable 1 m1) (h2 : s.resolvable 2 m2) (h3 : s.resolvable 3 m3)
      (hf : f (operandValue s 1 m1) (operandValue s 2 m2) = .ok r) :
      Wrote s i { s with mem := (s.mem.growTo (s.reach3 m1 m2 m3)).write (effectiveAddress s 3 m3).toNat r } (s.ptr.toInt + 4)
  | input {m1 : Mode} {msg : Message} {rest : List Message} {v : Word} (h1 : s.resolvable 1 m1)
      (hq : s.inq = msg :: rest) (hp : parseInt? msg = some v) :
      Wrote s (.inp m1)
        { s with mem := (s.mem.growTo (s.reach 1 m1)).write (effectiveAddress s 1 m1).toNat v, inq := rest } (s.ptr.toInt + 2)
  | send {m1 : Mode} (h1 : s.resolvable 1 m1) (hr : s.outReaderGone = false) :
      Wrote s (.out m1)
        { s with mem := s.mem.growTo (s.reach 1 m1), outq := s.outq ++ [dec (operandValue s 1 m1)] } (s.ptr.toInt + 2)
  | discard {m1 : Mode} (h1 : s.resolvable 1 m1) (hr : s.outReaderGone = true) :
      Wrote s (.out m1) { s with mem := s.mem.growTo (s.reach 1 m1) } (s.ptr.toInt + 2)
  | jump {i : Instr} {m1 m2 : Mode} {taken : Word → Bool}
      (hi : (i = .jt m1 m2 ∧ taken = conditionTrue) ∨ (i = .jf m1 m2 ∧ taken = conditionFalse))
      (h1 : s.resolvable 1 m1) (h2 : s.resolvable 2 m2) :
      Wrote s i { s with mem := s.mem.growTo (max (s.reach 1 m1) (s.reach 2 m2)) }
        (if taken (operandValue s 1 m1) then (operandValue s 2 m2).toInt else s.ptr.toInt + 3)
  | base {m1 : Mode} {r : Word} (h1 : s.resolvable 1 m1) (hr : r.toInt = s.rel.toInt + (operandValue s 1 m1).toInt) :
      Wrote s (.arb m1) { s with mem := s.mem.growTo (s.reach 1 m1), rel := r } (s.ptr.toInt + 2)
  | halt : Wrote s .halt s s.ptr.toInt

theorem storeOfTwo_ok {f : Word → Word → Except Raised Word} {m1 m2 m3 : Mode} {s : State} {e : Effect}
    (h : storeOfTwo f m1 m2 m3 s = .ok e) :
    s.resolvable 1 m1 ∧ s.resolvable 2 m2 ∧ s.resolvable 3 m3 ∧
      ∃ r, f (operandValue s 1 m1) (operandValue s 2 m2) = .ok r ∧
        e = .done { s with mem := (s.mem.growTo (s.reach3 m1 m2 m3)).write (effectiveAddress s 3 m3).toNat r } (s.ptr.toInt + 4) := by
  rw [storeOfTwo_eq] at h
  by_cases h1 : s.resolvable 1 m1
  · by_cases h2 : s.resolvable 2 m2
    · by_cases h3 : s.resolvable 3 m3
      · rw [if_pos h1, if_pos h2, if_pos h3] at h
        cases hf : f (operandValue s 1 m1) (operandValue s 2 m2) with
        | error g => rw [hf] at h; cases h
        | ok r => rw [hf] at h; cases h; exact ⟨h1, h2, h3, r, rfl, rfl⟩
      · rw [if_pos h1, if_pos h2, if_neg h3] at h; cases h
    · rw [if_pos h1, if_neg h2] at h; cases h
  · rw [if_neg h1] at h; cases h

theorem jumpOn_ok {taken : Word → Bool} {m1 m2 : Mode} {s : State} {e : Effect} (h : jumpOn taken m1 m2 s = .ok e) :
    s.resolvable 1 m1 ∧ s.resolvable 2 m2 ∧
      e = .done { s with mem := s.mem.growTo (max (s.reach 1 m1) (s.reach 2 m2)) }
        (if taken (operandValue s 1 m1) then (operandValue s 2 m2).toInt else s.ptr.toInt + 3) := by
  rw [jumpOn_eq] at h
  by_cases h1 : s.resolvable 1 m1
  · by_cases h2 : s.resolvable 2 m2
    · rw [if_pos h1, if_pos h2] at h; cases h; exact ⟨h1, h2, rfl⟩
    · rw [if_pos h1, if_neg h2] at h; cases h
  · rw [if_neg h1] at h; cases h

/-- Everything a completing body can have done. -/
theorem body_done {i : Instr} {s u : State} {next : Int} (h : body i s = .ok (.done u next)) : Wrote s i u next := by
  cases i with
  | add m1 m2 m3 =>
    obtain ⟨h1, h2, h3, r, hf, he⟩ := storeOfTwo_ok (f := fun x y => checkRange (sumOf x y)) h
    cases he; exact .store (.inl ⟨rfl, rfl⟩) h1 h2 h3 hf
  | mul m1 m2 m3 =>
    obtain ⟨h1, h2, h3, r, hf, he⟩ := storeOfTwo_ok (f := fun x y => checkRange (productOf x y)) h
    cases he; exact .store (.inr (.inl ⟨rfl, rfl⟩)) h1 h2 h3 hf
  | lt m1 m2 m3 =>
    obtain ⟨h1, h2, h3, r, hf, he⟩ := storeOfTwo_ok (f := fun x y => .ok (boolWord (lessThan x y))) h
    cases he; exact .store (.inr (.inr (.inl ⟨rfl, rfl⟩))) h1 h2 h3 hf
  | eq m1 m2 m3 =>
    obtain ⟨h1, h2, h3, r, hf, he⟩ := storeOfTwo_ok (f := fun x y => .ok (boolWord (equalTo x y))) h
    cases he; exact .store (.inr (.inr (.inr ⟨rfl, rfl⟩))) h1 h2 h3 hf
  | jt m1 m2 =>
    obtain ⟨h1, h2, he⟩ := jumpOn_ok (taken := conditionTrue) h
    cases he; exact .jump (.inl ⟨rfl, rfl⟩) h1 h2
  | jf m1 m2 =>
    obtain ⟨h1, h2, he⟩ := jumpOn_ok (taken := conditionFalse) h
    cases he; exact .jump (.inr ⟨rfl, rfl⟩) h1 h2
  | inp m1 =>
    change inBody m1 s = _ at h
    rw [inBody_eq] at h
    by_cases h1 : s.resolvable 1 m1
    · rw [if_pos h1] at h
      cases hq : s.inq with
      | nil => simp only [receive, hq] at h; cases hc : s.inClosed <;> simp [hc] at h
      | cons msg rest =>
        simp only [receive, hq] at h
        cases hp : parseInt msg with
        | error g => rw [hp] at h; cases h
        | ok v => rw [hp] at h; cases h; exact .input h1 hq (parseInt_ok.mp hp)
    · rw [if_neg h1] at h; cases h
  | out m1 =>
    change outBody m1 s = _ at h
    rw [outBody_eq] at h
    by_cases h1 : s.resolvable 1 m1
    · rw [if_pos h1] at h
      by_cases hr : s.outReaderGone = true
      · rw [if_pos hr] at h
        cases hc : s.cfg.outputClosed with
        | fault => rw [hc] at h; cases h
        | discard => rw [hc] at h; cases h; exact .discard h1 hr
      · rw [if_neg hr] at h
        by_cases hf : isFull s.cfg.outDepth s.outq = true
        · rw [if_pos hf] at h; cases h
        · rw [if_neg hf] at h; cases h; exact .send h1 (by simpa using hr)
    · rw [if_neg h1] at h; cases h
  | arb m1 =>
    change arbBody m1 s = _ at h
    rw [arbBody_eq] at h
    by_cases h1 : s.resolvable 1 m1
    · rw [if_pos h1] at h
      cases hr : checkRange (sumOf s.rel (operandValue s 1 m1)) with
      | error g => rw [hr] at h; cases h
      | ok r => rw [hr] at h; cases h; exact .base h1 (checkRange_ok hr)
    · rw [if_neg h1] at h; cases h
  | halt => cases h; exact .halt

/-- Only IN can find the end of input, and only on an empty closed FIFO. -/
theorem body_endOfInput {i : Instr} {s : State} (h : body i s = .ok .endOfInput) :
    ∃ m1, i = .inp m1 ∧ s.resolvable 1 m1 ∧ s.inq = [] ∧ s.inClosed = true := by
  cases i with
  | inp m1 =>
    change inBody m1 s = _ at h
    rw [inBody_eq] at h
    by_cases h1 : s.resolvable 1 m1
    · rw [if_pos h1] at h
      cases hq : s.inq with
      | nil =>
        cases hc : s.inClosed with
        | true => exact ⟨m1, rfl, h1, rfl, rfl⟩
        | false => simp [receive, hq, hc] at h
      | cons msg rest =>
        simp only [receive, hq] at h
        cases hp : parseInt msg <;> rw [hp] at h <;> cases h
    · rw [if_neg h1] at h; cases h
  | out m1 =>
    change outBody m1 s = _ at h
    rw [outBody_eq] at h
    split at h
    · split at h
      · split at h <;> cases h
      · split at h <;> cases h
    · cases h
  | arb m1 =>
    change arbBody m1 s = _ at h
    rw [arbBody_eq] at h
    split at h
    · split at h <;> cases h
    · cases h
  | halt => cases h
  | jt m1 m2 => obtain ⟨_, _, he⟩ := jumpOn_ok (taken := conditionTrue) h; cases he
  | jf m1 m2 => obtain ⟨_, _, he⟩ := jumpOn_ok (taken := conditionFalse) h; cases he
  | add m1 m2 m3 =>
    obtain ⟨_, _, _, r, _, he⟩ := storeOfTwo_ok (f := fun x y => checkRange (sumOf x y)) h; cases he
  | mul m1 m2 m3 =>
    obtain ⟨_, _, _, r, _, he⟩ := storeOfTwo_ok (f := fun x y => checkRange (productOf x y)) h; cases he
  | lt m1 m2 m3 =>
    obtain ⟨_, _, _, r, _, he⟩ := storeOfTwo_ok (f := fun x y => .ok (boolWord (lessThan x y))) h; cases he
  | eq m1 m2 m3 =>
    obtain ⟨_, _, _, r, _, he⟩ := storeOfTwo_ok (f := fun x y => .ok (boolWord (equalTo x y))) h; cases he

/-- Only IN on an empty open FIFO, and OUT on a full FIFO, can hold. -/
theorem body_hold {i : Instr} {s : State} (h : body i s = .ok .hold) :
    (∃ m1, i = .inp m1 ∧ s.resolvable 1 m1 ∧ s.inq = [] ∧ s.inClosed = false) ∨
      (∃ m1, i = .out m1 ∧ s.resolvable 1 m1 ∧ isFull s.cfg.outDepth s.outq = true) := by
  cases i with
  | inp m1 =>
    change inBody m1 s = _ at h
    rw [inBody_eq] at h
    by_cases h1 : s.resolvable 1 m1
    · rw [if_pos h1] at h
      cases hq : s.inq with
      | nil =>
        cases hc : s.inClosed with
        | false => exact .inl ⟨m1, rfl, h1, rfl, rfl⟩
        | true => simp [receive, hq, hc] at h
      | cons msg rest =>
        simp only [receive, hq] at h
        cases hp : parseInt msg <;> rw [hp] at h <;> cases h
    · rw [if_neg h1] at h; cases h
  | out m1 =>
    change outBody m1 s = _ at h
    rw [outBody_eq] at h
    by_cases h1 : s.resolvable 1 m1
    · rw [if_pos h1] at h
      split at h
      · split at h <;> cases h
      · split at h
        · next hf => exact .inr ⟨m1, rfl, h1, hf⟩
        · cases h
    · rw [if_neg h1] at h; cases h
  | arb m1 =>
    change arbBody m1 s = _ at h
    rw [arbBody_eq] at h
    split at h
    · split at h <;> cases h
    · cases h
  | halt => cases h
  | jt m1 m2 => obtain ⟨_, _, he⟩ := jumpOn_ok (taken := conditionTrue) h; cases he
  | jf m1 m2 => obtain ⟨_, _, he⟩ := jumpOn_ok (taken := conditionFalse) h; cases he
  | add m1 m2 m3 =>
    obtain ⟨_, _, _, r, _, he⟩ := storeOfTwo_ok (f := fun x y => checkRange (sumOf x y)) h; cases he
  | mul m1 m2 m3 =>
    obtain ⟨_, _, _, r, _, he⟩ := storeOfTwo_ok (f := fun x y => checkRange (productOf x y)) h; cases he
  | lt m1 m2 m3 =>
    obtain ⟨_, _, _, r, _, he⟩ := storeOfTwo_ok (f := fun x y => .ok (boolWord (lessThan x y))) h; cases he
  | eq m1 m2 m3 =>
    obtain ⟨_, _, _, r, _, he⟩ := storeOfTwo_ok (f := fun x y => .ok (boolWord (equalTo x y))) h; cases he

/-- Everything an instruction can answer: the fault of its body, a hold, the end of input, or what it wrote. -/
theorem exec_cases {i : Instr} {s t : State} (h : exec i s = .next t) :
    (∃ f, t = s.takeFault f) ∨
      (t = s ∧ body i s = .ok .hold) ∨
      (t = s.terminate .inputClosed ∧ ∃ m1, i = .inp m1 ∧ s.resolvable 1 m1 ∧ s.inq = [] ∧ s.inClosed = true) ∨
      (∃ u next, t = u.advance next ∧ Wrote s i u next) := by
  rw [exec_eq_commit] at h
  obtain ⟨f, _, ht⟩ | ⟨hb, ht⟩ | ⟨hb, ht⟩ | ⟨u, next, hb, ht⟩ := commit_cases h
  · exact .inl ⟨f, ht⟩
  · exact .inr (.inl ⟨ht, hb⟩)
  · exact .inr (.inr (.inl ⟨ht, body_endOfInput hb⟩))
  · exact .inr (.inr (.inr ⟨u, next, ht, body_done hb⟩))

/-- What no completing body changes. -/
theorem Wrote.frame {s u : State} {i : Instr} {next : Int} (h : Wrote s i u next) :
    u.ptr = s.ptr ∧ u.status = s.status ∧ u.fault = s.fault ∧ u.inClosed = s.inClosed ∧
      u.inReaderGone = s.inReaderGone ∧ u.outClosed = s.outClosed ∧ u.outReaderGone = s.outReaderGone ∧ u.cfg = s.cfg := by
  cases h <;> exact ⟨rfl, rfl, rfl, rfl, rfl, rfl, rfl, rfl⟩

/-- The end of a step that completes: a halt, or the next pointer in `ptr`. -/
theorem State.advance_cases (u : State) (next : Int) :
    (next = u.ptr.toInt ∧ u.advance next = u.terminate .halted) ∨
      (next ≠ u.ptr.toInt ∧ u.advance next = { u with ptr := nextPointer u.ptr next }) := by
  by_cases h : next = u.ptr.toInt
  · subst h; exact .inl ⟨rfl, State.advance_self u⟩
  · exact .inr ⟨h, State.advance_of_ne u next h⟩

end Sys2Proof.Machine
end

