-- ==== Sys2Proof/Laws/PerInstr.lean ====
section
/-! SUPPORT. Facts about the syntax of instructions, one lemma for each constructor. The family CanonicalWord: the canonical
instruction word of R59 stands for its own number, so no encoding wraps or is negative, and its opcode is its last two
digits. -/

namespace Sys2Proof.Laws.CanonicalWord

/-- The canonical word's value is `op + 100*m1 + 1000*m2 + 10000*m3`, and its residue mod 100 is the opcode. -/
def Statement (i : Instr) : Prop :=
  (encode i).toInt = (encodeNumber i : Int) ∧ encodeNumber i % 100 = i.opcode.number

theorem add (m1 m2 m3 : Mode) : Statement (.add m1 m2 m3) := by
  cases m1 <;> cases m2 <;> cases m3 <;> exact ⟨by decide, by decide⟩

theorem mul (m1 m2 m3 : Mode) : Statement (.mul m1 m2 m3) := by
  cases m1 <;> cases m2 <;> cases m3 <;> exact ⟨by decide, by decide⟩

theorem inp (m1 : Mode) : Statement (.inp m1) := by cases m1 <;> exact ⟨by decide, by decide⟩

theorem out (m1 : Mode) : Statement (.out m1) := by cases m1 <;> exact ⟨by decide, by decide⟩

theorem jt (m1 m2 : Mode) : Statement (.jt m1 m2) := by cases m1 <;> cases m2 <;> exact ⟨by decide, by decide⟩

theorem jf (m1 m2 : Mode) : Statement (.jf m1 m2) := by cases m1 <;> cases m2 <;> exact ⟨by decide, by decide⟩

theorem lt (m1 m2 m3 : Mode) : Statement (.lt m1 m2 m3) := by
  cases m1 <;> cases m2 <;> cases m3 <;> exact ⟨by decide, by decide⟩

theorem eq (m1 m2 m3 : Mode) : Statement (.eq m1 m2 m3) := by
  cases m1 <;> cases m2 <;> cases m3 <;> exact ⟨by decide, by decide⟩

theorem arb (m1 : Mode) : Statement (.arb m1) := by cases m1 <;> exact ⟨by decide, by decide⟩

theorem halt : Statement .halt := ⟨by decide, by decide⟩

end Sys2Proof.Laws.CanonicalWord
end

