-- ==== Sys2Proof/Laws/System.lean ====
section
/-! SUPPORT. A step always answers a next state, and what a host move can change. -/

namespace Sys2Proof.Machine

theorem step_answers (s : State) : ∃ t, step s = .next t := by
  by_cases hs : s.status = .running
  · rw [step_running hs]
    cases fetchInstr s with
    | error f => exact ⟨_, rfl⟩
    | ok i => exact exec_answers i s
  · exact ⟨s, step_ended hs⟩

/-- `stepState` is the step's answer. -/
theorem step_eq (s : State) : step s = .next (stepState s) := by
  obtain ⟨t, h⟩ := step_answers s
  simp [stepState, h]

/-- A host move touches the two queues and the host's own two flags, and nothing else. -/
theorem hostMove_frame (op : HostOp) (s : State) :
    ∃ inq inClosed outq outReaderGone,
      (hostMove op s).2 =
        { s with inq := inq, inClosed := inClosed, outq := outq, outReaderGone := outReaderGone } := by
  cases op with
  | push m =>
    simp only [hostMove, hostPush]
    split
    · exact ⟨_, _, _, _, rfl⟩
    · split
      · exact ⟨_, _, _, _, rfl⟩
      · split <;> exact ⟨_, _, _, _, rfl⟩
  | close => exact ⟨_, _, _, _, rfl⟩
  | pop =>
    simp only [hostMove, hostPop]
    split
    · exact ⟨_, _, _, _, rfl⟩
    · split
      · exact ⟨_, _, _, _, rfl⟩
      · split <;> exact ⟨_, _, _, _, rfl⟩
  | drop => exact ⟨_, _, _, _, rfl⟩
  | join => exact ⟨_, _, _, _, rfl⟩
  | readout => exact ⟨_, _, _, _, rfl⟩

end Sys2Proof.Machine
end

