-- ==== Sys2Proof/Laws/Text.lean ====
section
/-! SUPPORT. What reading and writing decimal digits comes to. -/

namespace Sys2Proof.Machine

/-- The number that digits continue to, after the value `acc`. -/
def digitsValue (acc : Nat) (ds : List Char) : Nat := ds.foldl (fun n ch => n * 10 + (ch.toNat - 48)) acc

/-- Every character is a decimal digit. -/
def allDigits (ds : List Char) : Prop := ∀ ch ∈ ds, 48 ≤ ch.toNat ∧ ch.toNat ≤ 57

theorem parseDigits_eq_some {ds : List Char} {acc n : Nat} :
    parseDigits acc ds = some n ↔ allDigits ds ∧ n = digitsValue acc ds := by
  induction ds generalizing acc with
  | nil => simp [parseDigits, allDigits, digitsValue, eq_comm]
  | cons ch ds ih =>
    by_cases h : 48 ≤ ch.toNat ∧ ch.toNat ≤ 57
    · simp [parseDigits, digitValue, h, ih, digitsValue, allDigits]
    · simp [parseDigits, digitValue, h, allDigits]

theorem parseNat_eq_some {ds : List Char} {n : Nat} :
    parseNat ds = some n ↔ ds ≠ [] ∧ allDigits ds ∧ n = digitsValue 0 ds := by
  cases ds with
  | nil => simp [parseNat]
  | cons c ds => rw [parseNat, parseDigits_eq_some]; simp

theorem digitChar_toNat {d : Nat} (h : d < 10) : (digitChar d).toNat = 48 + d := by interval_cases d <;> rfl

/-- The digits `decDigits` writes: one or more, no leading 0 but for the number 0, and they continue any value by `n`. -/
theorem decDigits_spec (fuel n : Nat) (acc : Message) (h : n < 10 ^ fuel) (hf : 0 < fuel) :
    ∃ ds, decDigits fuel n acc = ds ++ acc ∧ ds ≠ [] ∧ allDigits ds ∧
      (∀ a, digitsValue a ds = a * 10 ^ ds.length + n) ∧ (ds.head? = some '0' → n = 0 ∧ ds = ['0']) := by
  induction fuel generalizing n acc with
  | zero => omega
  | succ f ih =>
    have hd : n % 10 < 10 := Nat.mod_lt _ (by decide)
    unfold decDigits
    by_cases hz : n / 10 = 0
    · rw [if_pos hz]
      refine ⟨[digitChar (n % 10)], rfl, by simp, ?_, ?_, ?_⟩
      · intro ch hc; simp at hc; subst hc; rw [digitChar_toNat hd]; omega
      · intro a; simp [digitsValue, digitChar_toNat hd]; omega
      · intro h; simp at h
        have : (digitChar (n % 10)).toNat = 48 := by rw [h]; rfl
        rw [digitChar_toNat hd] at this
        exact ⟨by omega, by simp [h]⟩
    · rw [if_neg hz]
      have hlt : n / 10 < 10 ^ f := by rw [pow_succ] at h; omega
      have hf' : 0 < f := by
        rcases f with _ | f
        · simp at hlt; omega
        · omega
      obtain ⟨ds, e, a, b, c, d⟩ := ih (n / 10) (digitChar (n % 10) :: acc) hlt hf'
      refine ⟨ds ++ [digitChar (n % 10)], by rw [e]; simp, by simp, ?_, ?_, ?_⟩
      · intro ch hc
        rcases List.mem_append.mp hc with hc | hc
        · exact b ch hc
        · simp at hc; subst hc; rw [digitChar_toNat hd]; omega
      · intro x
        have := c x
        simp only [digitsValue] at this ⊢
        rw [List.foldl_append, this]; simp [digitChar_toNat hd, pow_succ]; ring_nf; omega
      · intro h; rw [List.head?_append] at h
        cases ds with
        | nil => simp at a
        | cons x xs => simp at h; have := d (by simp [h]); omega

end Sys2Proof.Machine
end

