-- ==== Sys2Proof/Tests/Slice0.lean ====
section
/-! SUPPORT. Tests: expected values come from 95_test_vectors.md (the row is named at each) or from the digit patterns of
30_encoding.md; and, for every obligation with hypotheses, a concrete state and operands that meet them. -/

namespace Sys2Proof.Tests

open Sys2Proof Sys2Proof.Machine

/-! Helpers. -/

/-- A machine spawned with these words, and these messages queued. -/
def boot (words : List Int) (inq : List Message) : State :=
  { spawnWords Config.standard (words.map (BitVec.ofInt 64)) none with inq := inq }

/-- The same with other parameters. -/
def bootWith (c : Config) (words : List Int) : State := { boot words [] with cfg := c }

/-- The state after one step. -/
def one (words : List Int) : State := stepState (boot words [])

def maxI : Int := 9223372036854775807
def minI : Int := -9223372036854775808

/-- A fault record. -/
def record (code : FaultCode) (ptr info : Int) : Option FaultRecord :=
  some { code := code, ptr := BitVec.ofInt 64 ptr, info := .value info }

/-- The default parameters with a capacity. -/
def capped (n : Nat) : Config := { Config.standard with memCapacity := some n }

/-! Well-formedness: the one check refuses an ill-formed term of each instruction with a destination (R57). -/

theorem test_add_immediate_dest_ill_formed :
    (Instr.add .positional .positional .immediate).wellFormed Config.standard = false := by decide
theorem test_mul_immediate_dest_ill_formed :
    (Instr.mul .relative .immediate .immediate).wellFormed Config.standard = false := by decide
theorem test_lt_immediate_dest_ill_formed :
    (Instr.lt .positional .positional .immediate).wellFormed Config.standard = false := by decide
theorem test_eq_immediate_dest_ill_formed :
    (Instr.eq .immediate .immediate .immediate).wellFormed Config.standard = false := by decide
theorem test_in_immediate_dest_ill_formed : (Instr.inp .immediate).wellFormed Config.standard = false := by decide
theorem test_write_slot_well_formed :
    (Instr.inp .immediate).wellFormed { Config.standard with immediateDest := .writeSlot } = true := by decide
theorem test_source_immediate_well_formed : (Instr.out .immediate).wellFormed Config.standard = true := by decide

/-! Decoding: words written out digit by digit from R49 and R51 (`CBAop`). -/

/-- A=1 B=1 C=2, op 01 (E16). -/
theorem test_decode_add : decode Config.standard 21101#64 = .ok (.add .immediate .immediate .relative) := by decide
/-- A=2 B=0 C=2, op 02. -/
theorem test_decode_mul : decode Config.standard 20202#64 = .ok (.mul .relative .positional .relative) := by decide
/-- A=2, op 03 (I5). -/
theorem test_decode_in : decode Config.standard 203#64 = .ok (.inp .relative) := by decide
/-- A=1, op 04 (O1). -/
theorem test_decode_out : decode Config.standard 104#64 = .ok (.out .immediate) := by decide
/-- A=1 B=2, op 05 (J6). -/
theorem test_decode_jt : decode Config.standard 2105#64 = .ok (.jt .immediate .relative) := by decide
/-- A=0 B=1, op 06 (P2). -/
theorem test_decode_jf : decode Config.standard 1006#64 = .ok (.jf .positional .immediate) := by decide
/-- A=1 B=0 C=0, op 07. -/
theorem test_decode_lt : decode Config.standard 107#64 = .ok (.lt .immediate .positional .positional) := by decide
/-- A=1 B=1 C=0, op 08 (E15). -/
theorem test_decode_eq : decode Config.standard 1108#64 = .ok (.eq .immediate .immediate .positional) := by decide
/-- A=2, op 09 (R3). -/
theorem test_decode_arb : decode Config.standard 209#64 = .ok (.arb .relative) := by decide
/-- Op 99 (H1). -/
theorem test_decode_halt : decode Config.standard 99#64 = .ok .halt := by decide
/-- E1 to E4: opcodes outside the map. -/
theorem test_decode_bad_opcode :
    [0#64, 100#64, 10#64, 98#64].map (decode Config.standard) = List.replicate 4 (.error .badOpcode) := by decide
/-- E5, E6: negative words. -/
theorem test_decode_negative :
    [BitVec.ofInt 64 (-1), BitVec.ofInt 64 (-99)].map (decode Config.standard) =
      List.replicate 2 (.error .badOpcode) := by decide
/-- E7, E8. -/
theorem test_decode_bad_mode :
    [301#64, 30001#64].map (decode Config.standard) = List.replicate 2 (.error .badMode) := by decide
/-- E9, E11. -/
theorem test_decode_unused_digits :
    [100001#64, 1099#64].map (decode Config.standard) = List.replicate 2 (.error .unusedModeDigits) := by decide
/-- E10, E12. -/
theorem test_decode_unused_digits_ignored :
    [100001#64, 1099#64].map (decode { Config.standard with unusedModeDigits := .ignore }) =
      [.ok (.add .positional .positional .positional), .ok .halt] := by decide
/-- E13, I6. -/
theorem test_decode_immediate_destination :
    [10001#64, 103#64].map (decode Config.standard) = List.replicate 2 (.error .immediateDestination) := by decide
/-- R59: the canonical words of E14 and of E17. -/
theorem test_encode :
    encode (.add .positional .positional .relative) = 20001#64 ∧
      encode (.mul .positional .positional .positional) = 2#64 := by decide

/-- P3, line 12: the words of an instruction with its parameters. -/
theorem test_encode_with :
    encodeWith (.add .immediate .immediate .relative) [7#64, 8#64, 10#64] = [21101#64, 7#64, 8#64, 10#64] := by decide
/-- R85, column code. -/
theorem test_fault_codes :
    [FaultCode.badOpcode, .badMode, .immediateDestination, .unusedModeDigits, .indexFault, .capacityFault, .parseFault,
      .overflowFault, .outputClosed].map FaultCode.number = [1, 2, 3, 4, 5, 6, 7, 8, 9] := by decide

/-! One step of each instruction. -/

/-- E18: the empty tape; the fault discards the growth. -/
theorem test_reset_steps_to_bad_opcode :
    (stepState State.reset).fault = record .badOpcode 0 0 ∧ (stepState State.reset).mem.len = 0 := by decide

/-- A9: the write beyond the tape. -/
theorem test_add :
    let t := one [1101, 1, 1, 10, 99]
    t.mem.read 10 = 2#64 ∧ t.mem.len = 11 ∧ t.ptr = 4#64 := by decide
/-- A3. -/
theorem test_add_overflow :
    let t := one [1101, maxI, 1, 5, 99]
    t.fault = record .overflowFault 0 9223372036854775808 ∧ t.mem.len = 5 := by decide

/-- A11. -/
theorem test_mul : (one [1102, -4294967296, 2147483648, 5, 99]).mem.read 5 = BitVec.ofInt 64 minI := by decide
/-- A12. -/
theorem test_mul_overflow :
    (one [1102, minI, -1, 5, 99]).fault = record .overflowFault 0 9223372036854775808 := by decide

/-- I1, first step. -/
theorem test_in :
    let t := stepState (boot [3, 5, 4, 5, 99, 0] [['4', '2']])
    t.mem.read 5 = 42#64 ∧ t.inq = [] ∧ t.ptr = 2#64 := by decide
/-- I3, and I2 once the host has closed. -/
theorem test_in_holds_then_ends :
    let s := boot [3, 5, 4, 5, 99, 0] []
    s.holding = true ∧ (stepState (hostMove .close s).2).status = .inputClosed := by decide

/-- O4. -/
theorem test_out : (one [104, -21, 99]).outq = [['-', '2', '1']] := by decide
/-- O5, both parameters. -/
theorem test_out_closed :
    let s := { boot [104, 5, 99] [] with outReaderGone := true }
    (stepState s).fault = record .outputClosed 0 5 ∧
      (stepState { s with cfg := { Config.standard with outputClosed := .discard } }).ptr = 2#64 := by decide

/-- J3: the self-jump halts. -/
theorem test_jt_self : (one [1105, 1, 0]).status = .halted := by decide
/-- J6: not taken, parameter 2 still resolved. -/
theorem test_jt_resolves_target : (one [2105, 0, -1, 99]).fault = record .indexFault 0 (-1) := by decide

/-- J7. -/
theorem test_jf_taken : (one [1106, 0, 4, 0, 99]).ptr = 4#64 := by decide
/-- J8. -/
theorem test_jf_not_taken : (one [1106, 3, 4, 99]).ptr = 3#64 := by decide

/-- C3. -/
theorem test_lt_signed : (one [1107, minI, maxI, 5, 99, 7]).mem.read 5 = 1#64 := by decide
/-- C4. -/
theorem test_lt_equal : (one [7, 0, 0, 0, 99]).mem.read 0 = 0#64 := by decide

/-- C7. -/
theorem test_eq : (one [8, 0, 0, 0, 99]).mem.read 0 = 1#64 := by decide
/-- C6. -/
theorem test_eq_signed : (one [1108, 5, -5, 5, 99, 7]).mem.read 5 = 0#64 := by decide

/-- R3: the operand is resolved with the old `rel`. -/
theorem test_arb : (one [209, 1, 99]).rel = 1#64 ∧ (one [209, 1, 99]).ptr = 2#64 := by decide
/-- R4, second step. -/
theorem test_arb_overflow :
    let t := stepState (one [109, maxI, 109, 1, 99])
    t.fault = record .overflowFault 2 9223372036854775808 ∧ t.rel = BitVec.ofInt 64 maxI := by decide

/-- H1. -/
theorem test_halt : (one [99]).status = .halted ∧ (one [99]).ptr = 0#64 ∧ (one [99]).mem.len = 1 := by decide

/-- M2 and M3: MEM_CAPACITY 8. -/
theorem test_capacity :
    (stepState (bootWith (capped 8) [1101, 1, 1, 8, 99])).fault = record .capacityFault 0 8 ∧
      (stepState (bootWith (capped 8) [1101, 1, 1, 7, 99])).mem.read 7 = 2#64 := by decide
/-- M4. -/
theorem test_negative_address : (one [204, -1, 99]).fault = record .indexFault 0 (-1) := by decide
/-- M6: IMMEDIATE_DEST = write_slot. -/
theorem test_write_slot :
    let t := stepState (bootWith { Config.standard with immediateDest := .writeSlot } [11101, 1, 1, 5, 99])
    t.mem.read 3 = 2#64 ∧ t.mem.len = 5 := by decide

/-! Text, the image, the host, the assembler notation. -/

/-- I8, I11, I12. -/
theorem test_parse_accepts :
    [['+', '5'], ['0', '0', '7'], ['-', '0']].map parseInt? = [some 5#64, some 7#64, some 0#64] ∧
      parseInt? ('-' :: "9223372036854775808".toList) = some (BitVec.ofInt 64 minI) := by decide
/-- I7, I9, I10. -/
theorem test_parse_refuses :
    [['a', 'b', 'c'], [' ', '5'], ['5', ' '], ['5', '\n'], [], "9223372036854775808".toList].map parseInt? =
      List.replicate 6 none := by decide
/-- O1, O3. -/
theorem test_dec :
    dec 0#64 = ['0'] ∧ dec (BitVec.ofInt 64 minI) = "-9223372036854775808".toList := by decide
/-- L2. -/
theorem test_image_trims :
    loadImage "1,0,0,0,99 \r\n".toList = some [1#64, 0#64, 0#64, 0#64, 99#64] := by decide
/-- L3 to L6. -/
theorem test_image_refused :
    ["1,,2", "1,2,", "", " 1,2", "1, 2"].map (fun t => loadImage t.toList) = List.replicate 5 none := by decide
/-- L7. -/
theorem test_initial_input :
    (spawn Config.standard ['9', '9'] (some 5#64)).map (fun s => s.inq) = some [['5']] := by decide
/-- P4, a label in the place of the target. -/
theorem test_assemble_self_jump :
    assemble [AsmLine.mk (some ['h']) (.instr .jt [.immediate (.number 1), .immediate (.label ['h'])])] =
      some [1105#64, 1#64, 0#64] := by decide
/-- P3, line 12. -/
theorem test_assemble_relative :
    assemble [AsmLine.mk none (.instr .add [.immediate (.number 7), .immediate (.number 8), .relPlus (.number 10)])] =
      some [21101#64, 7#64, 8#64, 10#64] := by decide
/-- P6: A pops into B, then A's end closes B's input (R107). -/
theorem test_forward :
    let a := { boot [99] [] with outq := [['1', '0']], outClosed := true }
    let y := System.forward 0 1 (System.forward 0 1 [a, boot [3, 0, 99] []])
    y.map (fun s => (s.inq, s.inClosed, s.outq)) = [([], false, []), ([['1', '0']], true, [])] := by decide
/-- An instruction word placed at reset is the next to run (R48, R53). -/
theorem test_place : (stepState (State.reset.withFetchWord 64 104)).outq = [['0']] := by decide

/-! Witnesses: for each obligation with hypotheses, in the order of the obligations, a state and operands that meet them, one for
each clause and at the boundary of its range. -/

theorem witness_SpawnLeavesResetValues :
    loadImage ['1', ',', ',', '2'] = none ∧ loadImage ['9', '9'] = some [99#64] ∧
      ([7#64, 99#64] : List Word)[1]? = some 99#64 ∧ [7#64, 99#64].length ≤ 2 := by decide

theorem witness_LoadImageReadsPrintedWords : ∀ ch ∈ [' ', '\t', '\r', '\n'], isTrailingBlank ch = true := by
  simp [isTrailingBlank]

/-- Below 0; above ADDR_MAX; the last word of the tape; the first free word with room for just one, and ADDR_MAX; the first word
past the capacity. -/
theorem witness_MemReadAnswers_MemWriteStoresOneWord :
    let m := (boot [1, 2, 3, 4, 5] []).mem
    ((-1 : Int) < 0 ∨ addrMax < -1) ∧ (addrMax + 1 < 0 ∨ addrMax < addrMax + 1) ∧
      (0 ≤ (4 : Int) ∧ 4 ≤ addrMax ∧ (4 : Int) < m.len) ∧
      ((5 : Int) ≤ addrMax ∧ (m.len : Int) ≤ 5 ∧ ∀ cap, (capped 6).memCapacity = some cap → (5 : Int) + 1 ≤ cap) ∧
      ((m.len : Int) ≤ addrMax ∧ Config.standard.memCapacity = none) ∧
      ((m.len : Int) ≤ 6 ∧ ∃ cap : Nat, (capped 6).memCapacity = some cap ∧ (cap : Int) < 6 + 1) := by
  refine ⟨by decide, by decide, by decide, ⟨by decide, by decide, ?_⟩, by decide, by decide, 6, rfl, by decide⟩
  intro cap h; cases h; decide

theorem witness_TapeNeverShrinksAndFillsWithZero :
    let m := (boot [1, 2] []).mem
    (∃ m', extend (capped 6) m 5 = .ok m') ∧ (∃ w m', memRead (capped 6) m 5 = .ok (w, m')) ∧
      (∃ m', memWrite (capped 6) m 5 7#64 = .ok m') ∧ ∃ t, step (boot [1101, 1, 1, 10, 99] []) = .next t :=
  ⟨⟨_, rfl⟩, ⟨_, _, rfl⟩, ⟨_, rfl⟩, step_answers _⟩

/-- Slot past ADDR_MAX; slot there but the address below 0; both there, the address at ADDR_MAX. -/
theorem witness_ResolveGivesEffectiveAddress :
    ¬ { boot [99] [] with ptr := BitVec.ofInt 64 addrMax }.accessible (addrMax + 1) ∧
      ((boot [204, -1, 99] []).accessible 1 ∧ ¬ (boot [204, -1, 99] []).accessible (-1)) ∧
      (boot [4, maxI, 99] []).accessible 1 ∧ (boot [4, maxI, 99] []).accessible addrMax ∧
      effectiveAddress (boot [4, maxI, 99] []) 1 .positional = addrMax := by decide

theorem witness_CapacityIsNeverExceeded :
    let s := bootWith (capped 8) [1101, 1, 1, 7, 99]
    s.cfg.memCapacity = some 8 ∧ s.mem.len ≤ 8 ∧ step s = .next (stepState s) ∧ (stepState s).mem.len = 8 :=
  ⟨rfl, by decide, step_eq _, by decide⟩

theorem witness_DecodeOfEncode :
    (Instr.add .immediate .immediate .relative).wellFormed Config.standard = true ∧
      (Instr.inp .immediate).wellFormed { Config.standard with immediateDest := .writeSlot } = true := by decide

theorem witness_EncodeOfDecode_DecodedIsWellFormed_DecodeReadsDecimalDigits :
    Config.standard.unusedModeDigits = .fault ∧
      decode Config.standard 22222#64 = .error .badOpcode ∧
      decode Config.standard 22208#64 = .ok (.eq .relative .relative .relative) ∧
      (Instr.eq .relative .relative .relative).modes[2]? = some .relative ∧
      decode Config.standard 1#64 = .ok (.add .positional .positional .positional) ∧
      (1#64 : Word).toInt.toNat < 10 ^ 2 := by decide

theorem witness_DecodeFaultsInOrder :
    ¬ ((30101#64 : Word).toInt < 0 ∨ (30101#64 : Word).toInt.toNat % 100 ∉ [1, 2, 3, 4, 5, 6, 7, 8, 9, 99]) ∧
      Opcode.add.number = (30101#64 : Word).toInt.toNat % 100 ∧
      ¬ ((99#64 : Word).toInt < 0 ∨ (99#64 : Word).toInt.toNat % 100 ∉ [1, 2, 3, 4, 5, 6, 7, 8, 9, 99]) ∧
      Opcode.halt.number = (99#64 : Word).toInt.toNat % 100 := by decide

/-- A tape whose last word, at ADDR_MAX, is HALT, and `ptr` there. -/
def atTop : State :=
  { boot [] [] with ptr := BitVec.ofInt 64 addrMax, mem := { cells := [(9223372036854775807, 99#64)], len := 9223372036854775808 } }

theorem witness_StepRunsDecodedInstruction_HaltStopsTheMachine :
    atTop.status = .running ∧ atTop.accessible atTop.ptr.toInt ∧ atTop.mem.read atTop.ptr.toInt.toNat = 99#64 ∧
      decode atTop.cfg (atTop.mem.read atTop.ptr.toInt.toNat) = .ok .halt ∧ atTop.cfg.unusedModeDigits = .fault := by decide

theorem witness_StepTakesFetchAndDecodeFaults :
    (let s : State := { boot [99] [] with ptr := BitVec.ofInt 64 (-1) }
     s.status = .running ∧ s.ptr.toInt < 0) ∧
      (let s : State := { boot [99] [] with ptr := BitVec.ofInt 64 minI }
       s.ptr.toInt < 0) ∧
      (¬ { bootWith (capped 1) [99] with ptr := 1#64 }.growable 2) ∧
      (boot [0] []).accessible 0 ∧ decode Config.standard ((boot [0] []).mem.read 0) = .error .badOpcode := by decide

/-- `ptr` just past the tape, and at ADDR_MAX. -/
theorem witness_RunningOffTheTapeIsBadOpcode :
    (let s : State := { bootWith (capped 2) [99] with ptr := 1#64 }
     s.status = .running ∧ s.accessible s.ptr.toInt ∧ (s.mem.len : Int) ≤ s.ptr.toInt) ∧
    (let s : State := { boot [99] [] with ptr := BitVec.ofInt 64 addrMax }
     s.status = .running ∧ s.accessible s.ptr.toInt ∧ (s.mem.len : Int) ≤ s.ptr.toInt) := by decide

theorem witness_EndedMachineNeverChanges :
    (one [99]).status ≠ .running ∧ step (one [99]) = .next (one [99]) ∧
      (boot [99] []).status = .running ∧ step (boot [99] []) = .next (one [99]) :=
  ⟨by decide, rfl, rfl, step_eq _⟩

theorem witness_FaultingStepCommitsNothing_FaultsAreSynchronousAndPrecise :
    (boot [204, -1, 99] []).status = .running ∧ step (boot [204, -1, 99] []) = .next (one [204, -1, 99]) ∧
      (one [204, -1, 99]).status = .faulted :=
  ⟨rfl, step_eq _, by decide⟩

/-- Parameter 1 of OUT; parameter 2 of a jump that is not taken (J6), after a parameter 1 that resolves. -/
theorem witness_OperandFaultsInOrder :
    ((Instr.out .relative).modes[0]? = some .relative ∧ ¬ (boot [204, -1, 99] []).resolvable 1 .relative) ∧
      (Instr.jt .immediate .relative).modes[1]? = some .relative ∧
      ¬ (boot [2105, 0, -1, 99] []).resolvable 2 .relative ∧ (boot [2105, 0, -1, 99] []).resolvable 1 .immediate := by
  decide

theorem witness_OnlyHaltAndSelfJumpHalt :
    (boot [1105, 1, 0] []).status = .running ∧ step (boot [1105, 1, 0] []) = .next (one [1105, 1, 0]) ∧
      (one [1105, 1, 0]).status = .halted ∧ step (boot [99] []) = .next (one [99]) ∧ (one [99]).status = .halted :=
  ⟨rfl, step_eq _, by decide, step_eq _, by decide⟩

/-- JT with condition 1 (J3) and JF with condition 0 (J9), both to their own address. -/
theorem witness_HaltAndSelfJumpAreIndistinguishable :
    (let s := boot [1105, 1, 0] []
     s.resolvable 1 .immediate ∧ s.resolvable 2 .immediate ∧ operandValue s 2 .immediate = s.ptr ∧
       operandValue s 1 .immediate ≠ 0#64) ∧
    (let s := boot [1106, 0, 0] []
     s.resolvable 1 .immediate ∧ s.resolvable 2 .immediate ∧ operandValue s 2 .immediate = s.ptr ∧
       operandValue s 1 .immediate = 0#64) := by decide

/-- The sum is the greatest word, the destination ADDR_MAX; and the sum is the least word. -/
theorem witness_AddCompletes :
    (let s := boot [1101, maxI, 0, maxI, 99] []
     s.resolvable 1 .immediate ∧ s.resolvable 2 .immediate ∧ s.resolvable 3 .positional ∧
       (operandValue s 1 .immediate).toInt + (operandValue s 2 .immediate).toInt = Word.maxValue ∧
       effectiveAddress s 3 .positional = addrMax) ∧
    (let s := boot [1101, minI, 0, 5, 99] []
     s.resolvable 1 .immediate ∧ s.resolvable 2 .immediate ∧ s.resolvable 3 .positional ∧
       (operandValue s 1 .immediate).toInt + (operandValue s 2 .immediate).toInt = Word.minValue) := by decide

/-- A11: the product is the least word. -/
theorem witness_MulCompletes :
    let s := boot [1102, -4294967296, 2147483648, 5, 99] []
    s.resolvable 1 .immediate ∧ s.resolvable 2 .immediate ∧ s.resolvable 3 .positional ∧
      (operandValue s 1 .immediate).toInt * (operandValue s 2 .immediate).toInt = Word.minValue := by decide

theorem witness_CompareCompletes :
    let s := boot [1107, minI, maxI, 5, 99, 7] []
    s.resolvable 1 .immediate ∧ s.resolvable 2 .immediate ∧ s.resolvable 3 .positional := by decide

theorem witness_ArbCompletes :
    let s := boot [109, maxI, 99] []
    s.resolvable 1 .immediate ∧ s.rel.toInt + (operandValue s 1 .immediate).toInt = Word.maxValue := by decide

/-- One past the greatest word, for ADD (A3), MUL (A12) and ARB (R4). -/
theorem witness_OverflowIsTakenAsFault :
    let r : Int := 9223372036854775808
    ¬ (Word.minValue ≤ r ∧ r ≤ Word.maxValue) ∧
    (let s := boot [1101, maxI, 1, 5, 99] []
     s.resolvable 1 .immediate ∧ s.resolvable 2 .immediate ∧ s.resolvable 3 .positional ∧
       r = (operandValue s 1 .immediate).toInt + (operandValue s 2 .immediate).toInt) ∧
    (let s := boot [1102, minI, -1, 5, 99] []
     s.resolvable 1 .immediate ∧ s.resolvable 2 .immediate ∧ s.resolvable 3 .positional ∧
       r = (operandValue s 1 .immediate).toInt * (operandValue s 2 .immediate).toInt) ∧
    (let s : State := { boot [109, 1, 99] [] with rel := BitVec.ofInt 64 maxI }
     s.resolvable 1 .immediate ∧ r = s.rel.toInt + (operandValue s 1 .immediate).toInt) := by decide

/-- Not taken (J1), taken (J4: to a negative address, which the jump itself allows), taken to itself (J3). -/
theorem witness_JtCompletes :
    (let s := boot [1105, 0, 7, 99] []
     s.resolvable 1 .immediate ∧ s.resolvable 2 .immediate ∧ operandValue s 1 .immediate = 0#64) ∧
    (let s := boot [1105, 1, -1] []
     s.resolvable 1 .immediate ∧ s.resolvable 2 .immediate ∧ operandValue s 1 .immediate ≠ 0#64 ∧
       operandValue s 2 .immediate ≠ s.ptr) ∧
    (let s := boot [1105, 1, 0] []
     operandValue s 1 .immediate ≠ 0#64 ∧ operandValue s 2 .immediate = s.ptr) := by decide

/-- Not taken (J8), taken (J7), taken to itself (J9). -/
theorem witness_JfCompletes :
    (let s := boot [1106, 3, 4, 99] []
     s.resolvable 1 .immediate ∧ s.resolvable 2 .immediate ∧ operandValue s 1 .immediate ≠ 0#64) ∧
    (let s := boot [1106, 0, 4, 0, 99] []
     s.resolvable 1 .immediate ∧ s.resolvable 2 .immediate ∧ operandValue s 1 .immediate = 0#64 ∧
       operandValue s 2 .immediate ≠ s.ptr) ∧
    (let s := boot [1106, 0, 0] []
     operandValue s 1 .immediate = 0#64 ∧ operandValue s 2 .immediate = s.ptr) := by decide

theorem witness_InCompletes :
    let s := boot [3, maxI, 99] [['7'], ['8']]
    s.resolvable 1 .positional ∧ s.inq = ['7'] :: [['8']] ∧ parseInt? ['7'] = some 7#64 := by decide

/-- Empty and open; empty and closed; a message that is no integer (I7). -/
theorem witness_InHoldsEndsOrFaults :
    (boot [3, 0, 99] []).resolvable 1 .positional ∧ (boot [3, 0, 99] []).inq = [] ∧
      (boot [3, 0, 99] []).inClosed = false ∧ { boot [3, 0, 99] [] with inClosed := true }.resolvable 1 .positional ∧
      (boot [3, 0, 99] [['a', 'b', 'c']]).resolvable 1 .positional ∧ parseInt? ['a', 'b', 'c'] = none := by decide

/-- A depth of 2: with one message queued OUT completes, with two it does not. -/
theorem witness_OutCompletes_OutFollowsOutputClosedAndDepth :
    let c : Config := { Config.standard with outDepth := some 2 }
    (bootWith c [104, 5, 99]).resolvable 1 .immediate ∧ (bootWith c [104, 5, 99]).outReaderGone = false ∧
      ({ bootWith c [104, 5, 99] with outq := [['1']] }.outq.length < 2) ∧
      2 ≤ { bootWith c [104, 5, 99] with outq := [['1'], ['2']] }.outq.length ∧ c.outDepth = some 2 ∧
      Config.standard.outDepth = none ∧ Config.standard.outputClosed = .fault ∧
      { boot [104, 5, 99] [] with outReaderGone := true }.resolvable 1 .immediate ∧
      { bootWith { c with outputClosed := .discard } [104, 5, 99] with outReaderGone := true }.resolvable 1 .immediate := by
  decide

/-- The host's receiver gone and the FIFO full at once, under each OUTPUT_CLOSED: the gone receiver decides (log 9). -/
theorem witness_OutFollowsOutputClosedAndDepth_gone_and_full :
    let c : Config := { Config.standard with outDepth := some 1 }
    let s : State := { bootWith c [104, 5, 99] with outReaderGone := true, outq := [['1']] }
    let d : State := { s with cfg := { c with outputClosed := .discard } }
    (s.resolvable 1 .immediate ∧ s.outReaderGone = true ∧ s.cfg.outputClosed = .fault ∧ 1 ≤ s.outq.length) ∧
      (d.resolvable 1 .immediate ∧ d.outReaderGone = true ∧ d.cfg.outputClosed = .discard ∧ 1 ≤ d.outq.length) ∧
      (stepState s).fault = record .outputClosed 0 5 ∧ (stepState d).ptr = 2#64 := by decide

theorem witness_AtMostOneArchitecturalWrite_InstructionFrame :
    (∃ t, exec (.add .immediate .immediate .positional) (boot [1101, 1, 1, 10, 99] []) = .next t) ∧
      (∃ t, exec (.inp .positional) (boot [3, 5] [['7']]) = .next t ∧ t.inq = []) ∧
      ∃ t, exec (.out .immediate) (boot [104, 5, 99] []) = .next t ∧ t.outq = [['5']] :=
  ⟨exec_answers _ _, ⟨_, rfl, by decide⟩, ⟨_, rfl, by decide⟩⟩

theorem witness_RelChangesOnlyByArb :
    step (boot [109, 5, 99] []) = .next (one [109, 5, 99]) ∧ (one [109, 5, 99]).rel ≠ (boot [109, 5, 99] []).rel :=
  ⟨step_eq _, by decide⟩

/-- A machine held at an IN; and one that is running and not held. -/
theorem witness_CoreBlocksOnlyAtInput_PushOrCloseWakesTheCore :
    let s := boot [3, 5] []
    s.cfg.outDepth = none ∧ s.cfg.inDepth = none ∧ s.inReaderGone = false ∧ s.holding = true ∧
      (boot [99] []).status = .running ∧ (boot [99] []).holding = false := by decide

theorem witness_HostNeverTouchesTheCore :
    (boot [99] []).status = .running ∧ (hostMove .close (boot [99] [])).2.inClosed = true ∧
      (hostMove .drop (boot [99] [])).2.outReaderGone = true := by decide

theorem witness_CoreNeverTouchesTheHostSide :
    step (boot [3, 5] [['7'], ['8']]) = .next (stepState (boot [3, 5] [['7'], ['8']])) ∧
      (stepState (boot [3, 5] [['7'], ['8']])).inq = [['8']] :=
  ⟨step_eq _, by decide⟩

/-- Halted, InputClosed, Faulted, running. -/
theorem witness_ReadoutOnlyAfterGracefulEnd_RunDeliversAtItsEnd :
    (one [99]).status = .halted ∧ (stepState { boot [3, 0] [] with inClosed := true }).status = .inputClosed ∧
      (one [0]).status = .faulted ∧ (boot [99] []).status = .running := by decide

/-- After the end; a depth of 1 with room; the same one full; a pop with a message, at the end, and before it. -/
theorem witness_PushAndPopFollowTheFifo :
    let c : Config := { Config.standard with inDepth := some 1 }
    ((one [99]).inClosed = false ∧ (one [99]).inReaderGone = true) ∧
      ((bootWith c [99]).inReaderGone = false ∧ (bootWith c [99]).inq.length < 1) ∧
      ({ bootWith c [99] with inq := [['1']] }.cfg.inDepth = some 1 ∧ 1 ≤ { bootWith c [99] with inq := [['1']] }.inq.length) ∧
      ((one [104, 5, 99]).outReaderGone = false ∧ (one [104, 5, 99]).outq = ['5'] :: []) ∧
      ((one [99]).outReaderGone = false ∧ (one [99]).outq = [] ∧ (one [99]).outClosed = true) ∧
      ((boot [99] []).outq = [] ∧ (boot [99] []).outClosed = false) := by decide

theorem witness_InstancesAreIndependent :
    ([State.reset, boot [99] []] : System)[1]? = some (boot [99] []) ∧ (0 : Nat) ≠ 1 := by decide

theorem witness_PlacedWordRunsNext :
    decodeTableWord 64 22208 = some (.eq .relative .relative .relative) ∧ decodeTableWord 8 99 = some .halt := by decide

theorem witness_AssembledInstructionIsCanonical :
    let ops : List AsmOperand := [.immediate (.number (-1)), .relMinus (.label ['x'])]
    (Instr.jt .immediate .relative).modes = ops.map AsmOperand.mode ∧
      AsmItem.words [(['x'], 3)] (.instr (Instr.jt .immediate .relative).opcode ops) =
        some [2105#64, BitVec.ofInt 64 (-1), BitVec.ofInt 64 (-3)] := by decide

theorem witness_SpawnMeetsInvariant : [99#64].length ≤ 9223372036854775808 := by decide

/-- A machine that has sent a message meets the invariant. -/
theorem sent_inv : (one [104, 5, 99]).Inv where
  memWf := by decide
  lenBound := by decide
  faultRecord := by decide
  faultPtr := by intro r h; cases h
  outEndpoint := by decide
  inEndpoint := by decide
  sentText := by
    have h : (one [104, 5, 99]).outq = [dec 5#64] := by decide
    intro m hm
    rw [h] at hm
    exact ⟨5#64, List.mem_singleton.mp hm⟩

theorem witness_StepKeepsInvariant_HostMoveKeepsInvariant :
    ∃ s t, s.Inv ∧ step s = .next t ∧ t ≠ s := ⟨_, _, sent_inv, step_eq _, by decide⟩

theorem witness_EveryReachableStateMeetsInvariant :
    let schedule := [Event.spawn Config.standard ['9', '9'] (some 5#64), .act 0 .core]
    (∀ c image initial, Event.spawn c image initial ∈ schedule → image.length < 9223372036854775808) ∧
      ∃ s ∈ System.run schedule [], s.status = .halted := by
  refine ⟨?_, _, List.mem_singleton.mpr rfl, by decide⟩
  intro c image initial h
  rcases List.mem_cons.mp h with h | h
  · cases h; decide
  · rcases List.mem_singleton.mp h with h; cases h

/-- An ARB whose last word stands at ADDR_MAX, and `ptr` at it. -/
def endsAtTop : State :=
  { boot [] [] with
    ptr := BitVec.ofInt 64 (maxI - 1)
    mem := { cells := [(9223372036854775806, 109#64), (9223372036854775807, 5#64)], len := 9223372036854775808 } }

/-- The pointer past the top, after ARB; a jump taken; a hold; and a negative `ptr`. -/
theorem witness_NextPointerPastTheTopIsNeverFetched :
    (endsAtTop.status = .running ∧ endsAtTop.accessible endsAtTop.ptr.toInt ∧
      decode endsAtTop.cfg (endsAtTop.mem.read endsAtTop.ptr.toInt.toNat) = .ok (.arb .immediate) ∧
      step endsAtTop = .next (stepState endsAtTop) ∧ (stepState endsAtTop).status = .running ∧
      endsAtTop.ptr.toInt + 2 = addrMax + 1) ∧
    ((one [1105, 1, 7]).status = .running ∧ (one [1105, 1, 7]).ptr = 7#64) ∧
    (boot [3, 5] []).holding = true ∧
    ((one [1105, 1, -1]).status = .running ∧ (one [1105, 1, -1]).ptr.toInt < 0) :=
  ⟨⟨by decide, by decide, by decide, step_eq _, by decide, by decide⟩, by decide, by decide, by decide⟩

/-- Past the top: `rel` has its new value, and the next fetch faults (R70), whatever the free value is (log 4). -/
theorem test_past_the_top_faults :
    (stepState endsAtTop).rel = 5#64 ∧ (stepState (stepState endsAtTop)).status = .faulted := by
  refine ⟨by decide, ?_⟩
  have hp : (stepState endsAtTop).ptr = nextPointer endsAtTop.ptr 9223372036854775808 := rfl
  have hr : (stepState endsAtTop).status = .running := by decide
  have hn : ¬ (stepState endsAtTop).accessible (stepState endsAtTop).ptr.toInt := by
    intro h
    have hneg := nextPointer_of_not_range endsAtTop.ptr (next := 9223372036854775808) (by decide)
    rw [← hp] at hneg
    have := h.1
    omega
  have hs := step_running hr
  rw [fetchInstr_eq, if_neg hn] at hs
  rw [step_eq] at hs
  injection hs with hs
  rw [hs]; rfl

end Sys2Proof.Tests
end

section
/-! PROOFS. The join port (10_state.md R29). -/

namespace Sys2Proof.Machine

/-- A join reads the status and nothing else, and leaves the whole state as it was (R29). -/
@[simp] theorem hostMove_join (s : State) : hostMove .join s = (joinAnswer s.status, s) := rfl

/-- Settles O47, by cases on the status: the answer of a join is `joinAnswer` of it, and the state stays. -/
theorem joinAnswersByStatus : Obligations.JoinAnswersByStatus := by
  unfold Obligations.JoinAnswersByStatus
  intro s
  rw [hostMove_join]
  cases s.status with
  | running => rfl
  | halted => rfl
  | inputClosed => rfl
  | faulted => rfl

end Sys2Proof.Machine
end

section
/-! PROOFS. Growth of the tape (20_memory.md R32 to R35): what `extend`, `memRead` and `memWrite` have done when they succeed, and
that no step shortens the tape (R33). -/

namespace Sys2Proof.Machine

/-- A cell at or above the length holds 0 (R18). -/
theorem Memory.read_of_len_le {m : Memory} {b : Nat} (h : m.len ≤ b) : m.read b = 0#64 :=
  if_neg (Nat.not_lt.mpr h)

theorem Memory.len_le_growTo_len (m : Memory) (n : Nat) : m.len ≤ (m.growTo n).len := by
  rw [Memory.growTo_len]; exact Nat.le_max_left _ _

theorem Memory.len_le_write_len (m : Memory) (a : Nat) (v : Word) : m.len ≤ (m.write a v).len := by
  rw [Memory.write_len]; exact Nat.le_max_left _ _

theorem checkAddr_ok {a : Int} {k : Nat} (h : checkAddr a = .ok k) : k = a.toNat := by
  rw [checkAddr_eq] at h
  split at h
  · exact (Except.ok.inj h).symm
  · cases h

/-- Both branches of `Extend` that succeed grow the tape to `a + 1` words: inside the tape that is no growth (R32). -/
theorem extend_ok {c : Config} {m m' : Memory} {a : Nat} (h : extend c m a = .ok m') : m' = m.growTo (a + 1) := by
  unfold extend at h
  split at h
  · next hin => rw [Memory.growTo_of_le m _ hin]; exact (Except.ok.inj h).symm
  · split at h
    · exact (Except.ok.inj h).symm
    · cases h

theorem memRead_ok {c : Config} {m m' : Memory} {a : Int} {w : Word} (h : memRead c m a = .ok (w, m')) :
    extend c m a.toNat = .ok m' ∧ w = m'.read a.toNat := by
  obtain ⟨k, hk, h⟩ := except_bind_ok.mp h
  obtain ⟨m1, hext, h⟩ := except_bind_ok.mp h
  cases checkAddr_ok hk
  cases h
  exact ⟨hext, rfl⟩

theorem memWrite_ok {c : Config} {m m' : Memory} {a : Int} {v : Word} (h : memWrite c m a v = .ok m') :
    ∃ m1, extend c m a.toNat = .ok m1 ∧ m' = m1.write a.toNat v := by
  obtain ⟨k, hk, h⟩ := except_bind_ok.mp h
  obtain ⟨m1, hext, h⟩ := except_bind_ok.mp h
  cases checkAddr_ok hk
  cases h
  exact ⟨m1, hext, rfl⟩

/-- A write after its `Extend` has room, so the length stays what `Extend` made it (R35). -/
theorem write_len_of_extend {c : Config} {m m1 : Memory} {a : Nat} (h : extend c m a = .ok m1) (v : Word) :
    (m1.write a v).len = m1.len := by
  rw [Memory.write_len, extend_ok h, Memory.growTo_len]
  omega

/-- A completing instruction only grows the tape and writes on it, and neither shortens it. -/
theorem Wrote.mem_len_le {s u : State} {i : Instr} {next : Int} (h : Wrote s i u next) : s.mem.len ≤ u.mem.len := by
  cases h with
  | store => exact (Memory.len_le_growTo_len _ _).trans (Memory.len_le_write_len _ _ _)
  | input => exact (Memory.len_le_growTo_len _ _).trans (Memory.len_le_write_len _ _ _)
  | send => exact Memory.len_le_growTo_len _ _
  | discard => exact Memory.len_le_growTo_len _ _
  | jump => exact Memory.len_le_growTo_len _ _
  | base => exact Memory.len_le_growTo_len _ _
  | halt => exact Nat.le_refl _

theorem exec_mem_len_le {i : Instr} {s t : State} (h : exec i s = .next t) : s.mem.len ≤ t.mem.len := by
  obtain ⟨f, rfl⟩ | ⟨rfl, -⟩ | ⟨rfl, -⟩ | ⟨u, next, rfl, hw⟩ := exec_cases h
  · exact Nat.le_refl _
  · exact Nat.le_refl _
  · exact Nat.le_refl _
  · rw [State.advance_mem]; exact hw.mem_len_le

/-- No step makes the tape shorter (R33): a step that ends, holds or faults leaves it, and an instruction only grows it. -/
theorem step_mem_len_le {s t : State} (h : step s = .next t) : s.mem.len ≤ t.mem.len := by
  obtain ⟨-, rfl⟩ | ⟨-, f, -, rfl⟩ | ⟨-, i, -, hexec⟩ := step_cases h
  · exact Nat.le_refl _
  · exact Nat.le_refl _
  · exact exec_mem_len_le hexec

/-- Settles O6: `Extend` is `growTo`, which changes no read; a read and a write call it first, and the write then has room; a
step keeps the tape or grows it, by cases on what the step can do. -/
theorem tapeNeverShrinksAndFillsWithZero : Obligations.TapeNeverShrinksAndFillsWithZero := by
  unfold Obligations.TapeNeverShrinksAndFillsWithZero
  refine ⟨fun c m m' a h => ?_, fun c m m' a w h => (memRead_ok h).1, fun c m m' a v h => ?_, fun s t => step_mem_len_le⟩
  · rw [extend_ok h]
    have hread : ∀ b, (m.growTo (a + 1)).read b = m.read b := Memory.read_growTo m (a + 1)
    exact ⟨Memory.len_le_growTo_len m _, fun b hb => (hread b).trans (Memory.read_of_len_le hb), fun b _ => hread b⟩
  · obtain ⟨m1, hext, rfl⟩ := memWrite_ok h
    exact ⟨m1, hext, write_len_of_extend hext v, fun b hb => Memory.read_write_other m1 _ b v hb⟩

end Sys2Proof.Machine
end

section
/-! PROOFS. Halt detection (40_machine_loop.md R65, R66): HALT and a taken self-jump end the step alike. -/

namespace Sys2Proof.Machine

/-- HALT returns its own pointer, so the machine halts (R65, 46_halt.md R84). -/
theorem exec_halt (s : State) : exec .halt s = .next (s.terminate .halted) :=
  congrArg Host.Outcome.next (State.advance_self s)

/-- A taken jump to its own address halts too, on the tape its operands have grown (R65). -/
theorem commit_jumpOn_self {taken : Word → Bool} {m1 m2 : Mode} {s : State} (h1 : s.resolvable 1 m1)
    (h2 : s.resolvable 2 m2) (htarget : operandValue s 2 m2 = s.ptr) (htaken : taken (operandValue s 1 m1) = true) :
    commit s (jumpOn taken m1 m2 s) =
      .next { s.terminate .halted with mem := s.mem.growTo (max (s.reach 1 m1) (s.reach 2 m2)) } := by
  rw [jumpOn_eq, if_pos h1, if_pos h2, if_pos htaken, htarget, commit_done]
  exact congrArg Host.Outcome.next (State.advance_self { s with mem := _ })

/-- Settles O23: both returned pointers equal the starting one, so both steps end in `terminate .halted`; the jump's tape differs
by the growth of its operands. -/
theorem haltAndSelfJumpAreIndistinguishable : Obligations.HaltAndSelfJumpAreIndistinguishable := by
  unfold Obligations.HaltAndSelfJumpAreIndistinguishable
  intro s m1 m2 h1 h2 htarget
  have hgrows := Memory.onlyGrows_growTo s.mem (max (s.reach 1 m1) (s.reach 2 m2))
  refine ⟨_, exec_halt s, fun hcond => ?jt, fun hcond => ?jf⟩
  case jt =>
    have htaken : conditionTrue (operandValue s 1 m1) = true := by rw [conditionTrue_eq]; exact decide_eq_true hcond
    exact ⟨_, commit_jumpOn_self h1 h2 htarget htaken, rfl, hgrows⟩
  case jf =>
    have htaken : conditionFalse (operandValue s 1 m1) = true := by rw [conditionFalse_eq]; exact decide_eq_true hcond
    exact ⟨_, commit_jumpOn_self h1 h2 htarget htaken, rfl, hgrows⟩

end Sys2Proof.Machine
end

section
/-! PROOFS. The one architectural write of a step (40_machine_loop.md R69), by the shape of the instruction. -/

namespace Sys2Proof.Machine

/-- `t` holds the tape, the relative base and the outbound FIFO of `u`: all that a step can write besides `ptr`, the inbound FIFO
and the end of the run (R69). -/
def State.sameWrites (u t : State) : Prop := t.mem = u.mem ∧ t.rel = u.rel ∧ t.outq = u.outq

/-- From `s` to `t` the tape changed at address `a` at most, and a word that changed there satisfies `value`; `rel` and the outbound
FIFO did not change. -/
def State.wroteOnly (s t : State) (a : Int) (value : Int → Prop) : Prop :=
  t.rel = s.rel ∧ t.outq = s.outq ∧ (∀ b, b ≠ a.toNat → t.mem.read b = s.mem.read b) ∧
    (t.mem.read a.toNat = s.mem.read a.toNat ∨ value (t.mem.read a.toNat).toInt)

/-- From `s` to `t` no word of the tape changed. -/
def State.sameWords (s t : State) : Prop := ∀ b, t.mem.read b = s.mem.read b

theorem State.sameWrites.sameWords {s t : State} (h : s.sameWrites t) : s.sameWords t := by
  obtain ⟨hmem, -, -⟩ := h
  exact fun b => by rw [hmem]

theorem State.sameWrites.wroteOnly {s t : State} (h : s.sameWrites t) (a : Int) (value : Int → Prop) :
    s.wroteOnly t a value := by
  have hwords := h.sameWords
  obtain ⟨-, hrel, houtq⟩ := h
  exact ⟨hrel, houtq, fun b _ => hwords b, .inl (hwords _)⟩

/-- A tape that grew and then took the word `r` at `a`. -/
theorem State.wroteOnly_of_write {s t : State} {n : Nat} {a : Int} {r : Word} {value : Int → Prop}
    (hmem : t.mem = (s.mem.growTo n).write a.toNat r) (hrel : t.rel = s.rel) (houtq : t.outq = s.outq)
    (hvalue : value r.toInt) : s.wroteOnly t a value := by
  refine ⟨hrel, houtq, fun b hb => ?_, .inr ?_⟩
  · rw [hmem, Memory.read_write_other _ _ _ _ hb, Memory.read_growTo]
  · rw [hmem, Memory.read_write, if_pos rfl]; exact hvalue

theorem State.sameWords_of_growTo {s t : State} {n : Nat} (hmem : t.mem = s.mem.growTo n) : s.sameWords t :=
  fun b => by rw [hmem, Memory.read_growTo]

/-- A fault, a hold and an end of input write nothing; else the step leaves what the completing body wrote, for the end of a step
only moves `ptr` or ends the run (R64, R69, R89). -/
theorem exec_sameWrites_or_done {i : Instr} {s t : State} (h : exec i s = .next t) :
    s.sameWrites t ∨ ∃ u next, body i s = .ok (.done u next) ∧ u.sameWrites t := by
  rw [exec_eq_commit] at h
  obtain ⟨f, -, rfl⟩ | ⟨-, rfl⟩ | ⟨-, rfl⟩ | ⟨u, next, hb, rfl⟩ := commit_cases h
  · exact .inl ⟨rfl, rfl, rfl⟩
  · exact .inl ⟨rfl, rfl, rfl⟩
  · exact .inl ⟨rfl, rfl, rfl⟩
  · exact .inr ⟨u, next, hb, State.advance_mem u next, State.advance_rel u next, State.advance_outq u next⟩

/-- ADD, MUL, LT and EQ write one word, `f` of the operands before the step, to the destination of parameter 3. -/
theorem exec_store_wroteOnly {i : Instr} {f : Word → Word → Except Raised Word} {m1 m2 m3 : Mode} {s t : State}
    {result : Int} (hbody : body i s = storeOfTwo f m1 m2 m3 s)
    (hresult : ∀ r, f (operandValue s 1 m1) (operandValue s 2 m2) = .ok r → r.toInt = result) (h : exec i s = .next t) :
    s.wroteOnly t (effectiveAddress s 3 m3) (fun r => r = result) := by
  obtain hsame | ⟨u, next, hb, hmem, hrel, houtq⟩ := exec_sameWrites_or_done h
  · exact hsame.wroteOnly _ _
  · obtain ⟨-, -, -, r, hf, he⟩ := storeOfTwo_ok (hbody ▸ hb)
    cases he
    exact State.wroteOnly_of_write hmem hrel houtq (hresult r hf)

/-- JT and JF write nothing. -/
theorem exec_jump_writes_nothing {i : Instr} {taken : Word → Bool} {m1 m2 : Mode} {s t : State}
    (hbody : body i s = jumpOn taken m1 m2 s) (h : exec i s = .next t) :
    s.sameWords t ∧ t.rel = s.rel ∧ t.outq = s.outq := by
  obtain hsame | ⟨u, next, hb, hmem, hrel, houtq⟩ := exec_sameWrites_or_done h
  · exact ⟨hsame.sameWords, hsame.2⟩
  · obtain ⟨-, -, he⟩ := jumpOn_ok (hbody ▸ hb)
    cases he
    exact ⟨State.sameWords_of_growTo hmem, hrel, houtq⟩

/-- IN writes one word, the value of the message at the head of the inbound FIFO, to its destination. -/
theorem exec_inp_wroteOnly {m1 : Mode} {s t : State} (h : exec (.inp m1) s = .next t) :
    s.wroteOnly t (effectiveAddress s 1 m1)
      (fun r => ∃ msg rest v, s.inq = msg :: rest ∧ parseInt? msg = some v ∧ r = v.toInt) := by
  obtain hsame | ⟨u, next, hb, hmem, hrel, houtq⟩ := exec_sameWrites_or_done h
  · exact hsame.wroteOnly _ _
  · cases body_done hb with
    | store hi => simp at hi
    | jump hi => simp at hi
    | input _ hq hp => exact State.wroteOnly_of_write hmem hrel houtq ⟨_, _, _, hq, hp, rfl⟩

/-- OUT appends one message at most, and writes nothing else. -/
theorem exec_out_writes {m1 : Mode} {s t : State} (h : exec (.out m1) s = .next t) :
    s.sameWords t ∧ t.rel = s.rel ∧ (t.outq = s.outq ∨ t.outq = s.outq ++ [dec (operandValue s 1 m1)]) := by
  obtain hsame | ⟨u, next, hb, hmem, hrel, houtq⟩ := exec_sameWrites_or_done h
  · exact ⟨hsame.sameWords, hsame.2.1, .inl hsame.2.2⟩
  · cases body_done hb with
    | store hi => simp at hi
    | jump hi => simp at hi
    | send => exact ⟨State.sameWords_of_growTo hmem, hrel, .inr houtq⟩
    | discard => exact ⟨State.sameWords_of_growTo hmem, hrel, .inl houtq⟩

/-- ARB writes `rel`, and nothing else. -/
theorem exec_arb_writes {m1 : Mode} {s t : State} (h : exec (.arb m1) s = .next t) :
    s.sameWords t ∧ t.outq = s.outq ∧
      (t.rel = s.rel ∨ t.rel.toInt = s.rel.toInt + (operandValue s 1 m1).toInt) := by
  obtain hsame | ⟨u, next, hb, hmem, hrel, houtq⟩ := exec_sameWrites_or_done h
  · exact ⟨hsame.sameWords, hsame.2.2, .inl hsame.2.1⟩
  · cases body_done hb with
    | store hi => simp at hi
    | jump hi => simp at hi
    | base _ hr => exact ⟨State.sameWords_of_growTo hmem, houtq, .inr (hrel ▸ hr)⟩

/-- HALT writes nothing. -/
theorem exec_halt_writes_nothing {s t : State} (h : exec .halt s = .next t) :
    s.sameWords t ∧ t.rel = s.rel ∧ t.outq = s.outq := by
  rw [exec_halt] at h
  cases h
  exact ⟨fun _ => rfl, rfl, rfl⟩

/-- Settles O36, by cases on the instruction: each shape writes in one place, and only when its body completes. -/
theorem atMostOneArchitecturalWrite : Obligations.AtMostOneArchitecturalWrite := by
  unfold Obligations.AtMostOneArchitecturalWrite
  intro s t i h
  cases i with
  | add m1 m2 m3 =>
    exact exec_store_wroteOnly (f := fun x y => checkRange (sumOf x y)) rfl (fun _ hr => checkRange_ok hr) h
  | mul m1 m2 m3 =>
    exact exec_store_wroteOnly (f := fun x y => checkRange (productOf x y)) rfl (fun _ hr => checkRange_ok hr) h
  | lt m1 m2 m3 =>
    exact exec_store_wroteOnly (f := fun x y => .ok (boolWord (lessThan x y))) rfl
      (fun _ hr => Except.ok.inj hr ▸ boolWord_toInt _) h
  | eq m1 m2 m3 =>
    exact exec_store_wroteOnly (f := fun x y => .ok (boolWord (equalTo x y))) rfl
      (fun _ hr => Except.ok.inj hr ▸ boolWord_toInt _) h
  | inp m1 => exact exec_inp_wroteOnly h
  | out m1 => exact exec_out_writes h
  | jt m1 m2 => exact exec_jump_writes_nothing rfl h
  | jf m1 m2 => exact exec_jump_writes_nothing rfl h
  | arb m1 => exact exec_arb_writes h
  | halt => exact exec_halt_writes_nothing h

end Sys2Proof.Machine
end

section
/-! PROOFS. Precise faults (60_exceptions.md R87): a step that faults is `takeFault` of the state before it. -/

namespace Sys2Proof.Machine

/-- An instruction that completes in a machine that is not faulted does not fault it: the end of the step keeps the status or
makes it halted (R64, R65). -/
theorem Wrote.advance_not_faulted {s u : State} {i : Instr} {next : Int} (h : Wrote s i u next) (hs : s.status ≠ .faulted) :
    (u.advance next).status ≠ .faulted := by
  obtain ⟨-, hstatus, -⟩ := h.frame
  obtain ⟨-, hadvance⟩ | ⟨-, hadvance⟩ := State.advance_cases u next
  · rw [hadvance]; exact Status.noConfusion
  · rw [hadvance]; exact hstatus ▸ hs

/-- An instruction comes to a fault in one way only, by taking it. -/
theorem exec_faulted {i : Instr} {s t : State} (hs : s.status ≠ .faulted) (h : exec i s = .next t)
    (ht : t.status = .faulted) : ∃ f, t = s.takeFault f := by
  obtain hfault | ⟨rfl, -⟩ | ⟨rfl, -⟩ | ⟨u, next, rfl, hw⟩ := exec_cases h
  · exact hfault
  · exact absurd ht hs
  · exact Status.noConfusion ht
  · exact absurd ht (hw.advance_not_faulted hs)

/-- The step of a running machine comes to a fault in one way only, by taking it: that of its fetch or decode, or that of its
instruction (R89). -/
theorem step_faulted {s t : State} (hs : s.status = .running) (h : step s = .next t) (ht : t.status = .faulted) :
    ∃ f, t = s.takeFault f := by
  obtain ⟨hended, -⟩ | ⟨-, f, -, rfl⟩ | ⟨-, i, -, hexec⟩ := step_cases h
  · exact absurd hs hended
  · exact ⟨f, rfl⟩
  · exact exec_faulted (hs ▸ Status.noConfusion) hexec ht

/-- Settles O20: a faulting step takes its fault in the state before it, so the record holds the `ptr` of that state; a host move
leaves the status and the record. -/
theorem faultsAreSynchronousAndPrecise : Obligations.FaultsAreSynchronousAndPrecise := by
  unfold Obligations.FaultsAreSynchronousAndPrecise
  refine ⟨fun s t hs h ht => ?step, fun op s => ?host⟩
  case step =>
    obtain ⟨f, rfl⟩ := step_faulted hs h ht
    exact ⟨_, State.takeFault_fault s f, rfl⟩
  case host =>
    obtain ⟨_, _, _, _, hmove⟩ := hostMove_frame op s
    rw [hmove]
    exact ⟨rfl, rfl⟩

end Sys2Proof.Machine
end

section
/-! PROOFS. The channels (60_exceptions.md R96, R97, R103): what a push and a pop can do, what a step does to the two queues, and
the conservation of messages along a schedule. -/

namespace Sys2Proof.Machine

/-- Everything a push can do: no move after closing; discarded once the machine has ended; held by a full FIFO; else its message
goes to the tail of the inbound FIFO (R96, R98). -/
theorem hostPush_cases (s : State) (m : Message) :
    (s.inClosed = true ∧ hostPush s m = (.notAMove, s)) ∨
      (s.inClosed = false ∧ s.inReaderGone = true ∧ hostPush s m = (.done, s)) ∨
      (s.inClosed = false ∧ s.inReaderGone = false ∧ isFull s.cfg.inDepth s.inq = true ∧ hostPush s m = (.held, s)) ∨
      (s.inClosed = false ∧ s.inReaderGone = false ∧ isFull s.cfg.inDepth s.inq = false ∧
        hostPush s m = (.done, { s with inq := s.inq ++ [m] })) := by
  unfold hostPush
  cases s.inClosed with
  | true => exact .inl ⟨rfl, rfl⟩
  | false =>
    cases s.inReaderGone with
    | true => exact .inr (.inl ⟨rfl, rfl, rfl⟩)
    | false =>
      cases isFull s.cfg.inDepth s.inq with
      | true => exact .inr (.inr (.inl ⟨rfl, rfl, rfl, rfl⟩))
      | false => exact .inr (.inr (.inr ⟨rfl, rfl, rfl, rfl⟩))

/-- Everything a pop can do: no move after dropping; the head of the outbound FIFO; of an empty one, end-of-output or a wait
(R103). -/
theorem hostPop_cases (s : State) :
    (s.outReaderGone = true ∧ hostPop s = (.notAMove, s)) ∨
      (∃ m rest, s.outReaderGone = false ∧ s.outq = m :: rest ∧ hostPop s = (.message m, { s with outq := rest })) ∨
      (s.outReaderGone = false ∧ s.outq = [] ∧ s.outClosed = true ∧ hostPop s = (.endOfOutput, s)) ∨
      (s.outReaderGone = false ∧ s.outq = [] ∧ s.outClosed = false ∧ hostPop s = (.held, s)) := by
  unfold hostPop
  cases s.outReaderGone with
  | true => exact .inl ⟨rfl, rfl⟩
  | false =>
    cases s.outq with
    | cons m rest => exact .inr (.inl ⟨m, rest, rfl, rfl, rfl⟩)
    | nil =>
      cases s.outClosed with
      | true => exact .inr (.inr (.inl ⟨rfl, rfl, rfl, rfl⟩))
      | false => exact .inr (.inr (.inr ⟨rfl, rfl, rfl, rfl⟩))

/-- A completing instruction takes messages from the head of the inbound FIFO only, and adds to the tail of the outbound FIFO
only. -/
theorem Wrote.queues {s u : State} {i : Instr} {next : Int} (h : Wrote s i u next) : u.inq <:+ s.inq ∧ s.outq <+: u.outq := by
  cases h with
  | input _ hq => exact ⟨hq ▸ List.suffix_cons _ _, List.prefix_rfl⟩
  | send => exact ⟨List.suffix_rfl, List.prefix_append _ _⟩
  | store => exact ⟨List.suffix_rfl, List.prefix_rfl⟩
  | discard => exact ⟨List.suffix_rfl, List.prefix_rfl⟩
  | jump => exact ⟨List.suffix_rfl, List.prefix_rfl⟩
  | base => exact ⟨List.suffix_rfl, List.prefix_rfl⟩
  | halt => exact ⟨List.suffix_rfl, List.prefix_rfl⟩

theorem exec_queues {i : Instr} {s t : State} (h : exec i s = .next t) : t.inq <:+ s.inq ∧ s.outq <+: t.outq := by
  obtain ⟨f, rfl⟩ | ⟨rfl, -⟩ | ⟨rfl, -⟩ | ⟨u, next, rfl, hw⟩ := exec_cases h
  · exact ⟨List.suffix_rfl, List.prefix_rfl⟩
  · exact ⟨List.suffix_rfl, List.prefix_rfl⟩
  · exact ⟨List.suffix_rfl, List.prefix_rfl⟩
  · rw [State.advance_inq, State.advance_outq]; exact hw.queues

/-- A step takes from the head of the inbound FIFO only, and adds to the tail of the outbound FIFO only (10_state.md R19, R20). -/
theorem step_queues {s t : State} (h : step s = .next t) : t.inq <:+ s.inq ∧ s.outq <+: t.outq := by
  obtain ⟨-, rfl⟩ | ⟨-, f, -, rfl⟩ | ⟨-, i, -, hexec⟩ := step_cases h
  · exact ⟨List.suffix_rfl, List.prefix_rfl⟩
  · exact ⟨List.suffix_rfl, List.prefix_rfl⟩
  · exact exec_queues hexec

/-- A host move takes from the head of the outbound FIFO just the message it answers, and puts nothing there (R103, R105). -/
theorem takenBy_host_append_outq (op : HostOp) (s : State) : takenBy (.host op) s ++ (hostMove op s).2.outq = s.outq := by
  cases op with
  | push m =>
    obtain ⟨-, h⟩ | ⟨-, -, h⟩ | ⟨-, -, -, h⟩ | ⟨-, -, -, h⟩ := hostPush_cases s m <;> simp [takenBy, hostMove, h]
  | pop =>
    obtain ⟨-, h⟩ | ⟨m, rest, -, hq, h⟩ | ⟨-, -, -, h⟩ | ⟨-, -, -, h⟩ := hostPop_cases s
    · simp [takenBy, hostMove, h]
    · simp [takenBy, hostMove, h, hq]
    · simp [takenBy, hostMove, h]
    · simp [takenBy, hostMove, h]
  | close => rfl
  | drop => rfl
  | join => cases hs : s.status <;> simp [takenBy, hostMove, joinAnswer, hs]
  | readout => cases hs : s.status <;> simp [takenBy, hostMove, readoutAnswer, hs]

/-- A host move puts at the tail of the inbound FIFO just the message it pushes, and takes nothing there (R96). -/
theorem hostMove_inq (op : HostOp) (s : State) : (hostMove op s).2.inq = s.inq ++ pushedBy (.host op) s := by
  cases op with
  | push m =>
    obtain ⟨-, h⟩ | ⟨-, hgone, h⟩ | ⟨-, -, -, h⟩ | ⟨-, hgone, -, h⟩ := hostPush_cases s m
    · simp [pushedBy, hostMove, h]
    · simp [pushedBy, hostMove, h, hgone]
    · simp [pushedBy, hostMove, h]
    · simp [pushedBy, hostMove, h, hgone]
  | pop =>
    obtain ⟨-, h⟩ | ⟨m, rest, -, -, h⟩ | ⟨-, -, -, h⟩ | ⟨-, -, -, h⟩ := hostPop_cases s <;>
      simp [pushedBy, hostMove, h]
  | close => exact (List.append_nil _).symm
  | drop => exact (List.append_nil _).symm
  | join => exact (List.append_nil _).symm
  | readout => exact (List.append_nil _).symm

/-- One move conserves the outbound messages. -/
theorem takenBy_append_move_outq (v : Move) (s : State) : takenBy v s ++ (move v s).outq = s.outq ++ sentBy v s := by
  cases v with
  | core => exact (List.prefix_iff_eq_append.mp (step_queues (step_eq s)).2).symm
  | host op => exact (takenBy_host_append_outq op s).trans (List.append_nil _).symm

/-- One move conserves the inbound messages. -/
theorem consumedBy_append_move_inq (v : Move) (s : State) : consumedBy v s ++ (move v s).inq = s.inq ++ pushedBy v s := by
  cases v with
  | core => exact (List.suffix_iff_eq_append.mp (step_queues (step_eq s)).1).trans (List.append_nil _).symm
  | host op => exact hostMove_inq op s

/-- A queue that every move conserves is conserved along every schedule: what has left it, then what it holds, is what it held at
the start and then what has entered it. -/
theorem collect_append_runMoves {queue : State → List Message} {left entered : Move → State → List Message}
    (hmove : ∀ v s, left v s ++ queue (move v s) = queue s ++ entered v s) (schedule : List Move) (s : State) :
    collect left schedule s ++ queue (runMoves schedule s) = queue s ++ collect entered schedule s := by
  induction schedule generalizing s with
  | nil => exact (List.append_nil _).symm
  | cons v vs ih =>
    calc (left v s ++ collect left vs (move v s)) ++ queue (runMoves vs (move v s))
        = left v s ++ (queue (move v s) ++ collect entered vs (move v s)) := by rw [List.append_assoc, ih]
      _ = (queue s ++ entered v s) ++ collect entered vs (move v s) := by rw [← List.append_assoc, hmove]
      _ = queue s ++ (entered v s ++ collect entered vs (move v s)) := List.append_assoc _ _ _

/-- Settles O39, by induction on the schedule: each move conserves the messages of both channels. -/
theorem channelsKeepOrderAndLoseNothing : Obligations.ChannelsKeepOrderAndLoseNothing := by
  unfold Obligations.ChannelsKeepOrderAndLoseNothing
  exact fun schedule s =>
    ⟨collect_append_runMoves (queue := State.outq) takenBy_append_move_outq schedule s,
      collect_append_runMoves (queue := State.inq) consumedBy_append_move_inq schedule s⟩

end Sys2Proof.Machine
end

section
/-! PROOFS. What the host never does (60_exceptions.md R105). -/

namespace Sys2Proof.Machine

/-- A host move takes one message at most. -/
theorem takenBy_host_cases (op : HostOp) (s : State) : takenBy (.host op) s = [] ∨ ∃ m, takenBy (.host op) s = [m] := by
  simp only [takenBy]
  split
  · next m _ => exact .inr ⟨m, rfl⟩
  · exact .inl rfl

/-- A host move leaves the outbound FIFO or takes its head: it places no message there (R105). -/
theorem hostMove_outq_cases (op : HostOp) (s : State) :
    (hostMove op s).2.outq = s.outq ∨ ∃ m, s.outq = m :: (hostMove op s).2.outq := by
  have houtq := takenBy_host_append_outq op s
  obtain htaken | ⟨m, htaken⟩ := takenBy_host_cases op s
  · rw [htaken] at houtq; exact .inl houtq
  · rw [htaken] at houtq; exact .inr ⟨m, houtq.symm⟩

/-- The answer of a push looks at the inbound channel and the depth only. -/
theorem hostPush_answer_congr {s t : State} (m : Message) (hclosed : t.inClosed = s.inClosed)
    (hgone : t.inReaderGone = s.inReaderGone) (hcfg : t.cfg = s.cfg) (hinq : t.inq = s.inq) :
    (hostPush t m).1 = (hostPush s m).1 := by
  simp only [hostPush, hclosed, hgone, hcfg, hinq, apply_ite Prod.fst]

/-- The answer of a pop looks at the outbound channel only. -/
theorem hostPop_answer_congr {s t : State} (hgone : t.outReaderGone = s.outReaderGone) (houtq : t.outq = s.outq)
    (hclosed : t.outClosed = s.outClosed) : (hostPop t).1 = (hostPop s).1 := by
  simp only [hostPop, hgone, houtq, hclosed]
  cases s.outReaderGone with
  | true => rfl
  | false =>
    cases s.outq with
    | cons m rest => rfl
    | nil => cases s.outClosed <;> rfl

/-- While the machine runs there is nothing to read out (10_state.md R28). -/
theorem readoutAnswer_running {s : State} (h : s.status = .running) : readoutAnswer s = .notAMove := by
  rw [readoutAnswer, h]

/-- What the host gets back while the machine runs tells nothing of `ptr`, `rel` or the tape (R105). -/
theorem hostMove_answer_of_running (op : HostOp) {s : State} (p r : Word) (mem : Memory) (hs : s.status = .running) :
    (hostMove op { s with ptr := p, rel := r, mem := mem }).1 = (hostMove op s).1 := by
  cases op with
  | push m => exact hostPush_answer_congr m rfl rfl rfl rfl
  | pop => exact hostPop_answer_congr rfl rfl rfl
  | close => rfl
  | drop => rfl
  | join => rfl
  | readout =>
    have hmoved : readoutAnswer { s with ptr := p, rel := r, mem := mem } = .notAMove := readoutAnswer_running hs
    exact hmoved.trans (readoutAnswer_running hs).symm

/-- Settles O45: a host move touches the two queues and the host's two flags only, takes from `outq` only, and its answer looks at
the channels and the status while the machine runs. -/
theorem hostNeverTouchesTheCore : Obligations.HostNeverTouchesTheCore := by
  unfold Obligations.HostNeverTouchesTheCore
  refine ⟨fun op s => ?frame, fun op s p r mem hs => hostMove_answer_of_running op p r mem hs,
    fun m s hclosed => if_pos hclosed, fun s hgone => if_pos hgone⟩
  have houtq := hostMove_outq_cases op s
  obtain ⟨_, _, _, _, hmove⟩ := hostMove_frame op s
  rw [hmove] at houtq ⊢
  exact ⟨rfl, rfl, rfl, rfl, rfl, rfl, rfl, rfl, houtq⟩

end Sys2Proof.Machine
end

section
/-! PROOFS. The decoder (30_encoding.md R49 to R59): the words that decode, in one equivalence, and the canonical word. -/

namespace Sys2Proof

/-! The mode field of an instruction word. -/

/-- The modes `ms` stand in the mode field `M`, mode of parameter 1 in the last digit (R49). -/
def Mode.areDigits (M : Nat) (ms : List Mode) : Prop := ∀ k m, ms[k]? = some m → m.toDigit = digit M k

theorem digit_zero (M : Nat) : digit M 0 = M % 10 := by rw [digit, pow_zero, Nat.div_one]

theorem digit_succ (M k : Nat) : digit M (k + 1) = digit (M / 10) k := by
  rw [digit, digit, pow_succ', Nat.div_div_eq_div_mul]

@[simp] theorem Mode.areDigits_nil (M : Nat) : Mode.areDigits M [] := fun k m h => by simp at h

@[simp] theorem Mode.areDigits_cons (M : Nat) (m : Mode) (ms : List Mode) :
    Mode.areDigits M (m :: ms) ↔ m.toDigit = M % 10 ∧ Mode.areDigits (M / 10) ms := by
  constructor
  · intro h
    exact ⟨(h 0 m rfl).trans (digit_zero M), fun k m' hk => (h (k + 1) m' hk).trans (digit_succ M k)⟩
  · rintro ⟨hm, hms⟩ k m' hk
    cases k with
    | zero => cases hk; exact hm.trans (digit_zero M).symm
    | succ k => exact (hms k m' hk).trans (digit_succ M k).symm

theorem Mode.toDigit_lt (m : Mode) : m.toDigit < 10 := by cases m <;> decide

/-- The mode field that R59 writes holds the modes. -/
theorem Mode.areDigits_encodeModes (ms : List Mode) : Mode.areDigits (encodeModes ms) ms := by
  induction ms with
  | nil => exact Mode.areDigits_nil _
  | cons m ms ih =>
    have hm := m.toDigit_lt
    have hmod : encodeModes (m :: ms) % 10 = m.toDigit := by rw [encodeModes]; omega
    have hdiv : encodeModes (m :: ms) / 10 = encodeModes ms := by rw [encodeModes]; omega
    rw [Mode.areDigits_cons, hmod, hdiv]
    exact ⟨rfl, ih⟩

/-- A mode field has no digit above its modes. -/
theorem encodeModes_div (ms : List Mode) : encodeModes ms / 10 ^ ms.length = 0 := by
  induction ms with
  | nil => rfl
  | cons m ms ih =>
    have hm := m.toDigit_lt
    have hdiv : encodeModes (m :: ms) / 10 = encodeModes ms := by rw [encodeModes]; omega
    rw [List.length_cons, pow_succ', ← Nat.div_div_eq_div_mul, hdiv, ih]

/-- A mode field that holds just the modes is the one that R59 writes. -/
theorem Mode.areDigits.encodeModes_eq {M : Nat} {ms : List Mode} (h : Mode.areDigits M ms)
    (hnone : M / 10 ^ ms.length = 0) : encodeModes ms = M := by
  induction ms generalizing M with
  | nil => simpa [encodeModes, eq_comm] using hnone
  | cons m ms ih =>
    obtain ⟨hm, hms⟩ := (Mode.areDigits_cons M m ms).mp h
    have htail : encodeModes ms = M / 10 :=
      ih hms (by rw [Nat.div_div_eq_div_mul, ← pow_succ', ← List.length_cons (a := m)]; exact hnone)
    rw [encodeModes, hm, htail]
    omega

theorem Instr.modes_length (i : Instr) : i.modes.length = i.opcode.nParams := by cases i <;> rfl

/-! The words that decode. -/

theorem decodeThree_ok {c : Config} {M : Nat} {mk : Mode → Mode → Mode → Instr} {i : Instr} :
    decodeThree c M mk = .ok i ↔ ∃ m1 m2 m3, mk m1 m2 m3 = i ∧ Mode.areDigits M [m1, m2, m3] ∧ m3.destOk c = true ∧
      (c.unusedModeDigits = .fault → M / 10 ^ 3 = 0) := by
  simp only [decodeThree, decode_bind_ok, decodeSource_ok, decodeDest_ok, Mode.areDigits_cons, Mode.areDigits_nil,
    and_true, digit_zero, digit_succ, Nat.add_one_sub_one, pure, Except.pure, Except.ok.injEq]
  constructor
  · rintro ⟨m1, h1, m2, h2, m3, ⟨h3, hd⟩, ⟨⟩, hu, hi⟩
    exact ⟨m1, m2, m3, hi, ⟨h1, h2, h3⟩, hd, checkUnused_ok.mp hu⟩
  · rintro ⟨m1, m2, m3, hi, ⟨h1, h2, h3⟩, hd, hu⟩
    exact ⟨m1, h1, m2, h2, m3, ⟨h3, hd⟩, (), checkUnused_ok.mpr hu, hi⟩

theorem decodeTwo_ok {c : Config} {M : Nat} {mk : Mode → Mode → Instr} {i : Instr} :
    decodeTwo c M mk = .ok i ↔ ∃ m1 m2, mk m1 m2 = i ∧ Mode.areDigits M [m1, m2] ∧
      (c.unusedModeDigits = .fault → M / 10 ^ 2 = 0) := by
  simp only [decodeTwo, decode_bind_ok, decodeSource_ok, Mode.areDigits_cons, Mode.areDigits_nil,
    and_true, digit_zero, digit_succ, Nat.add_one_sub_one, pure, Except.pure, Except.ok.injEq]
  constructor
  · rintro ⟨m1, h1, m2, h2, ⟨⟩, hu, hi⟩
    exact ⟨m1, m2, hi, ⟨h1, h2⟩, checkUnused_ok.mp hu⟩
  · rintro ⟨m1, m2, hi, ⟨h1, h2⟩, hu⟩
    exact ⟨m1, h1, m2, h2, (), checkUnused_ok.mpr hu, hi⟩

theorem decodeOne_ok {c : Config} {M : Nat} {mk : Mode → Instr} {i : Instr} :
    decodeOne c M mk = .ok i ↔ ∃ m1, mk m1 = i ∧ Mode.areDigits M [m1] ∧
      (c.unusedModeDigits = .fault → M / 10 ^ 1 = 0) := by
  simp only [decodeOne, decode_bind_ok, decodeSource_ok, Mode.areDigits_cons, Mode.areDigits_nil,
    and_true, digit_zero, Nat.sub_self, pure, Except.pure, Except.ok.injEq]
  constructor
  · rintro ⟨m1, h1, ⟨⟩, hu, hi⟩
    exact ⟨m1, hi, h1, checkUnused_ok.mp hu⟩
  · rintro ⟨m1, hi, h1, hu⟩
    exact ⟨m1, h1, (), checkUnused_ok.mpr hu, hi⟩

theorem decodeOneDest_ok {c : Config} {M : Nat} {mk : Mode → Instr} {i : Instr} :
    decodeOneDest c M mk = .ok i ↔ ∃ m1, mk m1 = i ∧ Mode.areDigits M [m1] ∧ m1.destOk c = true ∧
      (c.unusedModeDigits = .fault → M / 10 ^ 1 = 0) := by
  simp only [decodeOneDest, decode_bind_ok, decodeDest_ok, Mode.areDigits_cons, Mode.areDigits_nil,
    and_true, digit_zero, Nat.sub_self, pure, Except.pure, Except.ok.injEq]
  constructor
  · rintro ⟨m1, ⟨h1, hd⟩, ⟨⟩, hu, hi⟩
    exact ⟨m1, hi, h1, hd, checkUnused_ok.mp hu⟩
  · rintro ⟨m1, hi, h1, hd, hu⟩
    exact ⟨m1, ⟨h1, hd⟩, (), checkUnused_ok.mpr hu, hi⟩

theorem decodeHalt_ok {c : Config} {M : Nat} {i : Instr} :
    decodeModes c .halt M = .ok i ↔ .halt = i ∧ (c.unusedModeDigits = .fault → M / 10 ^ 0 = 0) := by
  simp only [decodeModes, decode_bind_ok, pure, Except.pure, Except.ok.injEq]
  exact ⟨fun ⟨⟨⟩, hu, hi⟩ => ⟨hi, checkUnused_ok.mp hu⟩, fun ⟨hi, hu⟩ => ⟨(), checkUnused_ok.mpr hu, hi⟩⟩

/-- What the mode field `M` must be for the instruction `i` (R53): it holds the modes of `i`, the destination's is allowed, and
digits above them are 0 where that is asked. -/
def Instr.fitsModeField (c : Config) (M : Nat) (i : Instr) : Prop :=
  Mode.areDigits M i.modes ∧ i.wellFormed c = true ∧ (c.unusedModeDigits = .fault → M / 10 ^ i.opcode.nParams = 0)

theorem decodeModes_sound {c : Config} {op : Opcode} {M : Nat} {i : Instr} (h : decodeModes c op M = .ok i) :
    i.opcode = op ∧ i.fitsModeField c M := by
  cases op with
  | add => obtain ⟨m1, m2, m3, rfl, hm, hd, hu⟩ := decodeThree_ok.mp h; exact ⟨rfl, hm, hd, hu⟩
  | mul => obtain ⟨m1, m2, m3, rfl, hm, hd, hu⟩ := decodeThree_ok.mp h; exact ⟨rfl, hm, hd, hu⟩
  | lt => obtain ⟨m1, m2, m3, rfl, hm, hd, hu⟩ := decodeThree_ok.mp h; exact ⟨rfl, hm, hd, hu⟩
  | eq => obtain ⟨m1, m2, m3, rfl, hm, hd, hu⟩ := decodeThree_ok.mp h; exact ⟨rfl, hm, hd, hu⟩
  | jt => obtain ⟨m1, m2, rfl, hm, hu⟩ := decodeTwo_ok.mp h; exact ⟨rfl, hm, rfl, hu⟩
  | jf => obtain ⟨m1, m2, rfl, hm, hu⟩ := decodeTwo_ok.mp h; exact ⟨rfl, hm, rfl, hu⟩
  | out => obtain ⟨m1, rfl, hm, hu⟩ := decodeOne_ok.mp h; exact ⟨rfl, hm, rfl, hu⟩
  | arb => obtain ⟨m1, rfl, hm, hu⟩ := decodeOne_ok.mp h; exact ⟨rfl, hm, rfl, hu⟩
  | inp => obtain ⟨m1, rfl, hm, hd, hu⟩ := decodeOneDest_ok.mp h; exact ⟨rfl, hm, hd, hu⟩
  | halt => obtain ⟨rfl, hu⟩ := decodeHalt_ok.mp h; exact ⟨rfl, Mode.areDigits_nil M, rfl, hu⟩

theorem decodeModes_complete {c : Config} {M : Nat} {i : Instr} (h : i.fitsModeField c M) :
    decodeModes c i.opcode M = .ok i := by
  obtain ⟨hm, hd, hu⟩ := h
  cases i with
  | add m1 m2 m3 => exact decodeThree_ok.mpr ⟨m1, m2, m3, rfl, hm, hd, hu⟩
  | mul m1 m2 m3 => exact decodeThree_ok.mpr ⟨m1, m2, m3, rfl, hm, hd, hu⟩
  | lt m1 m2 m3 => exact decodeThree_ok.mpr ⟨m1, m2, m3, rfl, hm, hd, hu⟩
  | eq m1 m2 m3 => exact decodeThree_ok.mpr ⟨m1, m2, m3, rfl, hm, hd, hu⟩
  | jt m1 m2 => exact decodeTwo_ok.mpr ⟨m1, m2, rfl, hm, hu⟩
  | jf m1 m2 => exact decodeTwo_ok.mpr ⟨m1, m2, rfl, hm, hu⟩
  | out m1 => exact decodeOne_ok.mpr ⟨m1, rfl, hm, hu⟩
  | arb m1 => exact decodeOne_ok.mpr ⟨m1, rfl, hm, hu⟩
  | inp m1 => exact decodeOneDest_ok.mpr ⟨m1, rfl, hm, hd, hu⟩
  | halt => exact decodeHalt_ok.mpr ⟨rfl, hu⟩

/-- The words that decode to `i` (R49 to R57): not negative, the opcode of `i` in the last two digits, and above them a mode field
that fits `i`. -/
theorem decode_ok_iff {c : Config} {w : Word} {i : Instr} :
    decode c w = .ok i ↔
      0 ≤ w.toInt ∧ i.opcode.number = w.toInt.toNat % 100 ∧ i.fitsModeField c (w.toInt.toNat / 100) := by
  constructor
  · intro h
    rw [decode] at h
    split at h
    · cases h
    · next hneg =>
      rw [decodeNumber] at h
      split at h
      · next op hop =>
        obtain ⟨rfl, hfits⟩ := decodeModes_sound h
        exact ⟨not_lt.mp hneg, Opcode.number_of_ofNumber? hop, hfits⟩
      · cases h
  · rintro ⟨hpos, hop, hfits⟩
    rw [decode, if_neg (not_lt.mpr hpos), decodeNumber, ← hop, Opcode.ofNumber?_number]
    exact decodeModes_complete hfits

/-! The canonical word. -/

theorem canonicalWord (i : Instr) : Laws.CanonicalWord.Statement i := by
  cases i with
  | add m1 m2 m3 => exact Laws.CanonicalWord.add m1 m2 m3
  | mul m1 m2 m3 => exact Laws.CanonicalWord.mul m1 m2 m3
  | inp m1 => exact Laws.CanonicalWord.inp m1
  | out m1 => exact Laws.CanonicalWord.out m1
  | jt m1 m2 => exact Laws.CanonicalWord.jt m1 m2
  | jf m1 m2 => exact Laws.CanonicalWord.jf m1 m2
  | lt m1 m2 m3 => exact Laws.CanonicalWord.lt m1 m2 m3
  | eq m1 m2 m3 => exact Laws.CanonicalWord.eq m1 m2 m3
  | arb m1 => exact Laws.CanonicalWord.arb m1
  | halt => exact Laws.CanonicalWord.halt

theorem encode_toInt (i : Instr) : (encode i).toInt = (encodeNumber i : Int) := (canonicalWord i).1

theorem encodeNumber_mod (i : Instr) : encodeNumber i % 100 = i.opcode.number := (canonicalWord i).2

theorem encodeNumber_div (i : Instr) : encodeNumber i / 100 = encodeModes i.modes := by
  have hmod := encodeNumber_mod i
  rw [encodeNumber] at hmod ⊢
  omega

/-- Settles O9: the last two digits of the canonical word are the opcode, and the digits above them the modes and no more. -/
theorem decodeOfEncode : Obligations.DecodeOfEncode := by
  unfold Obligations.DecodeOfEncode
  intro c i hwf
  rw [decode_ok_iff, encode_toInt, Int.toNat_natCast, encodeNumber_mod, encodeNumber_div]
  exact ⟨Int.natCast_nonneg _, rfl, Mode.areDigits_encodeModes _, hwf, fun _ => i.modes_length ▸ encodeModes_div _⟩

/-- Settles O10: a word with no digit above its modes is the sum of R59 of its own fields. -/
theorem encodeOfDecode : Obligations.EncodeOfDecode := by
  unfold Obligations.EncodeOfDecode
  intro c w i hunused h
  obtain ⟨hpos, hop, hmodes, -, hnone⟩ := decode_ok_iff.mp h
  have hfield : encodeModes i.modes = w.toInt.toNat / 100 :=
    hmodes.encodeModes_eq (i.modes_length ▸ hnone hunused)
  apply BitVec.eq_of_toInt_eq
  rw [encode_toInt, encodeNumber, hop, hfield]
  omega

/-- Settles O11: the decoder's own check of the destination is the one that well-formedness asks. -/
theorem decodedIsWellFormed : Obligations.DecodedIsWellFormed := by
  unfold Obligations.DecodedIsWellFormed
  intro c w i h
  obtain ⟨-, -, -, hwf, -⟩ := decode_ok_iff.mp h
  exact hwf

/-- A digit above a number is 0. -/
theorem div_hundred_digit_of_lt {n k : Nat} (h : n < 10 ^ (k + 2)) : digit (n / 100) k = 0 := by
  have hn : n / 100 / 10 ^ k = 0 := by
    rw [Nat.div_div_eq_div_mul]
    exact Nat.div_eq_of_lt (by rw [pow_add] at h; omega)
  rw [digit, hn]

/-- Settles O12: the fields of a word that decodes, read off its decimal digits. -/
theorem decodeReadsDecimalDigits : Obligations.DecodeReadsDecimalDigits := by
  unfold Obligations.DecodeReadsDecimalDigits
  intro c w i h
  obtain ⟨hpos, hop, hmodes, -, hnone⟩ := decode_ok_iff.mp h
  refine ⟨hpos, hop, i.modes_length, fun k m hk => ⟨hmodes k m hk, fun hlt => ?_⟩, hnone⟩
  have hzero : m.toDigit = 0 := (hmodes k m hk).trans (div_hundred_digit_of_lt hlt)
  cases m with
  | positional => rfl
  | immediate => cases hzero
  | relative => cases hzero

end Sys2Proof
end

section
/-! PROOFS. How far the tape grows (20_memory.md R31, R32), and the invariant of reachable states. -/

namespace Sys2Proof.Machine

/-! The reach of an instruction. -/

/-- A resolvable parameter asks for no more than the address space (R31). -/
theorem State.reach_le_addressSpace {s : State} {i : Nat} {m : Mode} (h : s.resolvable i m) :
    s.reach i m ≤ 9223372036854775808 := by
  obtain ⟨⟨-, hslot, -⟩, ⟨-, haddress, -⟩⟩ := h
  simp only [State.reach, addrMax] at *
  omega

/-- `n` words are in the address space, and the tape of `s` can grow to them (R31, R32). -/
def State.reaches (s : State) (n : Nat) : Prop := s.growable n ∧ n ≤ 9223372036854775808

theorem State.reaches_of_resolvable {s : State} {i : Nat} {m : Mode} (h : s.resolvable i m) : s.reaches (s.reach i m) :=
  ⟨State.resolvable_growable h, State.reach_le_addressSpace h⟩

theorem State.reaches_max {s : State} {a b : Nat} (ha : s.reaches a) (hb : s.reaches b) : s.reaches (max a b) :=
  ⟨State.growable_max ha.1 hb.1, max_le ha.2 hb.2⟩

theorem State.reaches_reach3 {s : State} {m1 m2 m3 : Mode} (h1 : s.resolvable 1 m1) (h2 : s.resolvable 2 m2)
    (h3 : s.resolvable 3 m3) : s.reaches (s.reach3 m1 m2 m3) :=
  State.reaches_max (State.reaches_max (State.reaches_of_resolvable h1) (State.reaches_of_resolvable h2))
    (State.reaches_of_resolvable h3)

/-- The destination of an instruction lies within its reach, so the write grows the tape no further. -/
theorem State.address_le_reach3 (s : State) (m1 m2 m3 : Mode) :
    (effectiveAddress s 3 m3).toNat + 1 ≤ s.reach3 m1 m2 m3 :=
  (s.address_le_reach 3 m3).trans (Nat.le_max_right _ _)

theorem Memory.write_growTo_len (m : Memory) {n a : Nat} (v : Word) (h : a + 1 ≤ n) :
    ((m.growTo n).write a v).len = max m.len n := (Memory.stores_write m n a v h).1

/-- The tape that a completing instruction leaves: it has grown to some reach. -/
theorem Wrote.mem_len {s u : State} {i : Instr} {next : Int} (h : Wrote s i u next) :
    ∃ n, s.reaches n ∧ u.mem.len = max s.mem.len n := by
  cases h with
  | store _ h1 h2 h3 => exact ⟨_, State.reaches_reach3 h1 h2 h3, Memory.write_growTo_len _ _ (s.address_le_reach3 _ _ _)⟩
  | input h1 => exact ⟨_, State.reaches_of_resolvable h1, Memory.write_growTo_len _ _ (s.address_le_reach _ _)⟩
  | send h1 => exact ⟨_, State.reaches_of_resolvable h1, Memory.growTo_len _ _⟩
  | discard h1 => exact ⟨_, State.reaches_of_resolvable h1, Memory.growTo_len _ _⟩
  | jump _ h1 h2 =>
    exact ⟨_, State.reaches_max (State.reaches_of_resolvable h1) (State.reaches_of_resolvable h2), Memory.growTo_len _ _⟩
  | base h1 => exact ⟨_, State.reaches_of_resolvable h1, Memory.growTo_len _ _⟩
  | halt => exact ⟨0, ⟨s.growable_zero, Nat.zero_le _⟩, (Nat.max_zero _).symm⟩

/-- Everything a step can leave of the length of the tape: it is as it was, or it has grown to some reach. -/
theorem step_mem_len {s t : State} (h : step s = .next t) :
    t.mem.len = s.mem.len ∨ ∃ n, s.reaches n ∧ t.mem.len = max s.mem.len n := by
  obtain ⟨-, rfl⟩ | ⟨-, f, -, rfl⟩ | ⟨-, i, -, hexec⟩ := step_cases h
  · exact .inl rfl
  · exact .inl rfl
  · obtain ⟨f, rfl⟩ | ⟨rfl, -⟩ | ⟨rfl, -⟩ | ⟨u, next, rfl, hw⟩ := exec_cases hexec
    · exact .inl rfl
    · exact .inl rfl
    · exact .inl rfl
    · rw [State.advance_mem]; exact .inr hw.mem_len

/-- Settles O8: a tape within its capacity grows only to a length that `Extend` lets pass. -/
theorem capacityIsNeverExceeded : Obligations.CapacityIsNeverExceeded := by
  unfold Obligations.CapacityIsNeverExceeded
  intro s t cap hcap hlen h
  obtain hsame | ⟨n, ⟨hgrow, -⟩, hmax⟩ := step_mem_len h
  · exact hsame ▸ hlen
  · have hn : n ≤ cap := by
      obtain hin | hfits := hgrow
      · exact hin.trans hlen
      · simpa [fitsCapacity, hcap] using hfits
    exact hmax ▸ max_le hlen hn

/-! The invariant, step by step. -/

theorem Wrote.mem_wf {s u : State} {i : Instr} {next : Int} (h : Wrote s i u next) (hwf : s.mem.wf = true) :
    u.mem.wf = true := by
  cases h with
  | store => exact Memory.write_wf _ _ _ (Memory.growTo_wf _ _ hwf)
  | input => exact Memory.write_wf _ _ _ (Memory.growTo_wf _ _ hwf)
  | send => exact Memory.growTo_wf _ _ hwf
  | discard => exact Memory.growTo_wf _ _ hwf
  | jump => exact Memory.growTo_wf _ _ hwf
  | base => exact Memory.growTo_wf _ _ hwf
  | halt => exact hwf

/-- An instruction sends one message at most, the text of its operand (R78). -/
theorem Wrote.outq_cases {s u : State} {i : Instr} {next : Int} (h : Wrote s i u next) :
    u.outq = s.outq ∨ ∃ m1, i = .out m1 ∧ u.outq = s.outq ++ [dec (operandValue s 1 m1)] := by
  cases h with
  | send => exact .inr ⟨_, rfl, rfl⟩
  | store => exact .inl rfl
  | input => exact .inl rfl
  | discard => exact .inl rfl
  | jump => exact .inl rfl
  | base => exact .inl rfl
  | halt => exact .inl rfl

/-- A completing body keeps the invariant, its end not yet made. -/
theorem Wrote.inv {s u : State} {i : Instr} {next : Int} (h : Wrote s i u next) (hs : s.Inv) : u.Inv := by
  obtain ⟨hptr, hstatus, hfault, -, hreader, houtClosed, -, -⟩ := h.frame
  refine { memWf := h.mem_wf hs.memWf, lenBound := ?_, faultRecord := ?_, faultPtr := ?_, outEndpoint := ?_,
           inEndpoint := ?_, sentText := ?_ }
  · obtain ⟨n, ⟨-, hn⟩, hlen⟩ := h.mem_len
    exact hlen ▸ max_le hs.lenBound hn
  · rw [hfault, hstatus]; exact hs.faultRecord
  · rw [hfault, hptr]; exact hs.faultPtr
  · rw [houtClosed, hstatus]; exact hs.outEndpoint
  · rw [hreader, hstatus]; exact hs.inEndpoint
  · intro m hm
    obtain hq | ⟨m1, -, hq⟩ := h.outq_cases
    · exact hs.sentText m (hq ▸ hm)
    · rw [hq] at hm
      obtain hm | hm := List.mem_append.mp hm
      · exact hs.sentText m hm
      · exact ⟨_, List.mem_singleton.mp hm⟩

/-- A machine that has not faulted has no record. -/
theorem State.Inv.fault_eq_none {s : State} (h : s.Inv) (hs : s.status ≠ .faulted) : s.fault = none :=
  Option.not_isSome_iff_eq_none.mp (fun hsome => hs (h.faultRecord.mp hsome))

theorem State.Inv.takeFault {s : State} (h : s.Inv) (f : Raised) : (s.takeFault f).Inv where
  memWf := h.memWf
  lenBound := h.lenBound
  faultRecord := by simp
  faultPtr := by rintro r ⟨rfl⟩; rfl
  outEndpoint := by simp
  inEndpoint := by simp
  sentText := h.sentText

/-- A graceful end keeps the invariant (R94). -/
theorem State.Inv.terminate {s : State} (h : s.Inv) (hs : s.status = .running) {st : Status} (hrun : st ≠ .running)
    (hfault : st ≠ .faulted) : (s.terminate st).Inv where
  memWf := h.memWf
  lenBound := h.lenBound
  faultRecord := by simp [h.fault_eq_none (hs ▸ Status.noConfusion), hfault]
  faultPtr := h.faultPtr
  outEndpoint := by simp [hrun]
  inEndpoint := by simp [hrun]
  sentText := h.sentText

/-- The invariant says nothing of the `ptr` of a running machine, so a step may move it. -/
theorem State.Inv.withPtr {s : State} (h : s.Inv) (hs : s.status = .running) (p : Word) : { s with ptr := p }.Inv :=
  { h with
    faultPtr := fun r hr => by
      have hnone : s.fault = none := h.fault_eq_none (hs ▸ Status.noConfusion)
      cases hnone.symm.trans hr }

theorem State.Inv.advance {u : State} (h : u.Inv) (hu : u.status = .running) (next : Int) : (u.advance next).Inv := by
  obtain ⟨-, hadvance⟩ | ⟨-, hadvance⟩ := State.advance_cases u next
  · rw [hadvance]; exact h.terminate hu Status.noConfusion Status.noConfusion
  · rw [hadvance]; exact h.withPtr hu _

theorem exec_keeps_inv {i : Instr} {s t : State} (hs : s.status = .running) (hinv : s.Inv) (h : exec i s = .next t) :
    t.Inv := by
  obtain ⟨f, rfl⟩ | ⟨rfl, -⟩ | ⟨rfl, -⟩ | ⟨u, next, rfl, hw⟩ := exec_cases h
  · exact hinv.takeFault f
  · exact hinv
  · exact hinv.terminate hs Status.noConfusion Status.noConfusion
  · obtain ⟨-, hstatus, -⟩ := hw.frame
    exact (hw.inv hinv).advance (hstatus.trans hs) next

/-- Settles O56, by cases on what the step can do: it stays, takes a fault, ends gracefully, or completes an instruction and moves
`ptr`. -/
theorem stepKeepsInvariant : Obligations.StepKeepsInvariant := by
  unfold Obligations.StepKeepsInvariant
  intro s t hinv h
  obtain ⟨-, rfl⟩ | ⟨-, f, -, rfl⟩ | ⟨hs, i, -, hexec⟩ := step_cases h
  · exact hinv
  · exact hinv.takeFault f
  · exact exec_keeps_inv hs hinv hexec

/-- Settles O57: a host move changes no field the invariant speaks of but `outq`, from which it only takes. -/
theorem hostMoveKeepsInvariant : Obligations.HostMoveKeepsInvariant := by
  unfold Obligations.HostMoveKeepsInvariant
  intro op s hinv
  have houtq := hostMove_outq_cases op s
  obtain ⟨_, _, _, _, hmove⟩ := hostMove_frame op s
  rw [hmove] at houtq ⊢
  refine { hinv with sentText := fun m hm => hinv.sentText m ?_ }
  obtain hsame | ⟨head, htaken⟩ := houtq
  · exact hsame ▸ hm
  · exact htaken ▸ List.mem_cons_of_mem head hm

/-! Spawn, and every reachable state. -/

theorem Memory.ofWords_len (ws : List Word) : (Memory.ofWords ws).len = ws.length := by
  rw [Memory.ofWords, Memory.writeWords_len, Nat.zero_max]
  cases ws with
  | nil => rfl
  | cons w ws => rw [if_neg (List.cons_ne_nil w ws), Nat.zero_add]

/-- Settles O55: a spawned tape is canonical and as long as its image, and a running machine has no record, holds its endpoints and
has sent nothing. -/
theorem spawnMeetsInvariant : Obligations.SpawnMeetsInvariant := by
  unfold Obligations.SpawnMeetsInvariant
  intro c words initial hlen
  exact
    { memWf := Memory.ofWords_wf words
      lenBound := (Memory.ofWords_len words).symm ▸ hlen
      faultRecord := by simp [spawnWords]
      faultPtr := fun r h => by cases h
      outEndpoint := by simp [spawnWords]
      inEndpoint := by simp [spawnWords]
      sentText := fun m hm => by cases hm }

/-- Settles O1: both are the same state, field by field. -/
theorem resetIsSpawnOfEmptyWordList : Obligations.ResetIsSpawnOfEmptyWordList := by
  unfold Obligations.ResetIsSpawnOfEmptyWordList
  rfl

/-- Settles O54: reset is spawn of the empty word list, which is short enough. -/
theorem resetMeetsInvariant : Obligations.ResetMeetsInvariant := by
  unfold Obligations.ResetMeetsInvariant
  have hspawn : State.reset = spawnWords Config.standard [] none := resetIsSpawnOfEmptyWordList
  exact hspawn ▸ spawnMeetsInvariant Config.standard [] none (Nat.zero_le _)

theorem trimEnd_length_le (text : Message) : (trimEnd text).length ≤ text.length := by
  induction text with
  | nil => exact Nat.le_refl _
  | cons ch rest ih =>
    rw [trimEnd]
    split
    · split <;> simp
    · next heq => simpa [heq] using ih

/-- A text has at most one piece more than it has commas. -/
theorem splitCommas_length_le (text : Message) : (splitCommas text).length ≤ text.length + 1 := by
  induction text with
  | nil => exact Nat.le_refl _
  | cons ch rest ih =>
    rw [splitCommas]
    split
    · simpa using ih
    · split
      · simp
      · next heq => rw [heq] at ih; simp only [List.length_cons] at ih ⊢; omega

theorem parsePieces_length {pieces : List Message} {ws : List Word} (h : parsePieces pieces = some ws) :
    ws.length = pieces.length := by
  induction pieces generalizing ws with
  | nil => cases h; rfl
  | cons piece pieces ih =>
    rw [parsePieces] at h
    split at h
    · next w rest _ hrest => cases h; exact congrArg (· + 1) (ih hrest)
    · cases h

/-- An image has no more words than it has characters, and one (R112). -/
theorem loadImage_length_le {text : Message} {ws : List Word} (h : loadImage text = some ws) :
    ws.length ≤ text.length + 1 :=
  calc ws.length = (splitCommas (trimEnd text)).length := parsePieces_length h
    _ ≤ (trimEnd text).length + 1 := splitCommas_length_le _
    _ ≤ text.length + 1 := Nat.add_le_add_right (trimEnd_length_le text) 1

theorem spawn_inv {c : Config} {image : Message} {initial : Option Word} {s : State}
    (hlen : image.length < 9223372036854775808) (h : spawn c image initial = some s) : s.Inv := by
  rw [spawn] at h
  split at h
  · next words hload =>
    cases h
    exact spawnMeetsInvariant c words initial ((loadImage_length_le hload).trans hlen)
  · cases h

theorem move_inv (v : Move) {s : State} (h : s.Inv) : (move v s).Inv := by
  cases v with
  | core => exact stepKeepsInvariant s _ h (step_eq s)
  | host op => exact hostMoveKeepsInvariant op s h

/-- A machine after a move of number `k` was there before, or is what the move makes of one that was. -/
theorem System.mem_update {f : State → State} {k : Nat} {y : System} {s : State} (h : s ∈ System.update f k y) :
    s ∈ y ∨ ∃ r ∈ y, s = f r := by
  induction y generalizing k with
  | nil => cases k <;> cases h
  | cons r rest ih =>
    cases k with
    | zero =>
      obtain rfl | h := List.mem_cons.mp h
      · exact .inr ⟨r, List.mem_cons_self, rfl⟩
      · exact .inl (List.mem_cons_of_mem r h)
    | succ k =>
      obtain rfl | h := List.mem_cons.mp h
      · exact .inl List.mem_cons_self
      · obtain h | ⟨q, hq, he⟩ := ih h
        · exact .inl (List.mem_cons_of_mem r h)
        · exact .inr ⟨q, List.mem_cons_of_mem r hq, he⟩

/-- No image that the event spawns is as long as the address space. -/
def Event.imageBounded (e : Event) : Prop :=
  ∀ c image initial, Event.spawn c image initial = e → image.length < 9223372036854775808

theorem System.event_inv {e : Event} {y : System} (he : e.imageBounded) (hy : ∀ s ∈ y, s.Inv) :
    ∀ s ∈ System.event e y, s.Inv := by
  intro s hs
  cases e with
  | act k v =>
    obtain hs | ⟨r, hr, rfl⟩ := System.mem_update hs
    · exact hy s hs
    · exact move_inv v (hy r hr)
  | spawn c image initial =>
    rw [System.event] at hs
    split at hs
    · next r hspawn =>
      obtain hs | hs := List.mem_append.mp hs
      · exact hy s hs
      · cases List.mem_singleton.mp hs
        exact spawn_inv (he c image initial rfl) hspawn
    · exact hy s hs

theorem System.run_inv {schedule : List Event} {y : System} (hbound : ∀ e ∈ schedule, e.imageBounded)
    (hy : ∀ s ∈ y, s.Inv) : ∀ s ∈ System.run schedule y, s.Inv := by
  induction schedule generalizing y with
  | nil => exact hy
  | cons e es ih =>
    exact ih (fun d hd => hbound d (List.mem_cons_of_mem e hd)) (System.event_inv (hbound e List.mem_cons_self) hy)

/-- Settles O58: the invariant of every machine is kept by every event, so by every schedule from the empty system. -/
theorem everyReachableStateMeetsInvariant : Obligations.EveryReachableStateMeetsInvariant := by
  unfold Obligations.EveryReachableStateMeetsInvariant
  intro schedule hbound
  exact System.run_inv (fun e he c image initial h => hbound c image initial (h ▸ he)) (fun s hs => by cases hs)

end Sys2Proof.Machine
end

section
/-! PROOFS. The decode faults in the order of R53, and words written out from the encoding (30_encoding.md R51 to R60). -/

namespace Sys2Proof

/-! The three checks of R53 on the mode field `M` of an operation. -/

/-- A consumed digit of the mode field names no mode (R41). -/
def Opcode.badDigit (op : Opcode) (M : Nat) : Prop := ∃ k, k < op.nParams ∧ 2 < digit M k

/-- The digit of the destination is 1, and that is refused (R57). -/
def Opcode.immediateDest (c : Config) (op : Opcode) (M : Nat) : Prop :=
  c.immediateDest = .fault ∧ ∃ d, op.dest = some d ∧ digit M (d - 1) = 1

/-- There is a nonzero digit above the consumed ones, and that is refused (R56). -/
def Opcode.extraDigits (c : Config) (op : Opcode) (M : Nat) : Prop :=
  c.unusedModeDigits = .fault ∧ M / 10 ^ op.nParams ≠ 0

/-- What each answer of the decoder says of the mode field: the first of the three checks that fails, or that all pass. -/
def answersInOrder (c : Config) (op : Opcode) (M : Nat) : Except DecodeFault Instr → Prop
  | .error .badOpcode => False
  | .error .badMode => op.badDigit M
  | .error .immediateDestination => ¬ op.badDigit M ∧ op.immediateDest c M
  | .error .unusedModeDigits => ¬ op.badDigit M ∧ ¬ op.immediateDest c M ∧ op.extraDigits c M
  | .ok i => i.opcode = op ∧ ¬ op.badDigit M ∧ ¬ op.immediateDest c M ∧ ¬ op.extraDigits c M

/-! Everything each check can answer. -/

theorem decodeSource_cases (M k : Nat) :
    (2 < digit M k ∧ decodeSource M (k + 1) = .error .badMode) ∨
      (¬ 2 < digit M k ∧ ∃ m, decodeSource M (k + 1) = .ok m) := by
  rw [decodeSource, Nat.add_sub_cancel]
  cases hm : Mode.ofDigit? (digit M k) with
  | none => exact .inl ⟨Mode.ofDigit?_eq_none.mp hm, rfl⟩
  | some m =>
    refine .inr ⟨fun hbad => ?_, m, rfl⟩
    cases (Mode.ofDigit?_eq_none.mpr hbad).symm.trans hm

/-- A mode is refused at the destination exactly when it is immediate and `IMMEDIATE_DEST` says fault. -/
theorem Mode.destOk_eq_false {c : Config} {m : Mode} : m.destOk c = false ↔ c.immediateDest = .fault ∧ m.toDigit = 1 := by
  cases m with
  | positional => simp [Mode.destOk, Mode.toDigit]
  | immediate => cases h : c.immediateDest <;> simp [Mode.destOk, Mode.toDigit, h]
  | relative => simp [Mode.destOk, Mode.toDigit]

theorem decodeDest_cases (c : Config) (M k : Nat) :
    (2 < digit M k ∧ decodeDest c M (k + 1) = .error .badMode) ∨
      (¬ 2 < digit M k ∧ (c.immediateDest = .fault ∧ digit M k = 1) ∧
        decodeDest c M (k + 1) = .error .immediateDestination) ∨
      (¬ 2 < digit M k ∧ ¬ (c.immediateDest = .fault ∧ digit M k = 1) ∧ ∃ m, decodeDest c M (k + 1) = .ok m) := by
  rw [decodeDest, Nat.add_sub_cancel]
  cases hm : Mode.ofDigit? (digit M k) with
  | none => exact .inl ⟨Mode.ofDigit?_eq_none.mp hm, rfl⟩
  | some m =>
    have hgood : ¬ 2 < digit M k := fun hbad => by cases (Mode.ofDigit?_eq_none.mpr hbad).symm.trans hm
    have hok := Mode.destOk_eq_false (c := c) (m := m)
    rw [Mode.ofDigit?_eq_some.mp hm] at hok
    cases hd : m.destOk c with
    | false => exact .inr (.inl ⟨hgood, hok.mp hd, by simp [hd]⟩)
    | true => exact .inr (.inr ⟨hgood, fun himm => by simp [hok.mpr himm] at hd, m, by simp [hd]⟩)

theorem checkUnused_cases (c : Config) (M n : Nat) :
    ((c.unusedModeDigits = .fault ∧ M / 10 ^ n ≠ 0) ∧ checkUnused c M n = .error .unusedModeDigits) ∨
      (¬ (c.unusedModeDigits = .fault ∧ M / 10 ^ n ≠ 0) ∧ checkUnused c M n = .ok ()) := by
  by_cases h : c.unusedModeDigits = .fault ∧ M / 10 ^ n ≠ 0
  · exact .inl ⟨h, if_pos h⟩
  · exact .inr ⟨h, if_neg h⟩

/-! The shapes of instructions. -/

theorem Opcode.badDigit_three {op : Opcode} (hn : op.nParams = 3) (M : Nat) :
    op.badDigit M ↔ 2 < digit M 0 ∨ 2 < digit M 1 ∨ 2 < digit M 2 := by
  simp only [Opcode.badDigit, hn, Nat.exists_lt_succ_right, Nat.not_lt_zero, false_and, exists_false, false_or, or_assoc]

theorem Opcode.badDigit_two {op : Opcode} (hn : op.nParams = 2) (M : Nat) :
    op.badDigit M ↔ 2 < digit M 0 ∨ 2 < digit M 1 := by
  simp only [Opcode.badDigit, hn, Nat.exists_lt_succ_right, Nat.not_lt_zero, false_and, exists_false, false_or]

theorem Opcode.badDigit_one {op : Opcode} (hn : op.nParams = 1) (M : Nat) : op.badDigit M ↔ 2 < digit M 0 := by
  simp [Opcode.badDigit, hn]

theorem Opcode.immediateDest_some {op : Opcode} {d : Nat} (hd : op.dest = some d) (c : Config) (M : Nat) :
    op.immediateDest c M ↔ c.immediateDest = .fault ∧ digit M (d - 1) = 1 := by
  simp [Opcode.immediateDest, hd]

theorem Opcode.not_immediateDest_of_none {op : Opcode} (hd : op.dest = none) (c : Config) (M : Nat) :
    ¬ op.immediateDest c M := by
  simp [Opcode.immediateDest, hd]

section
variable {op : Opcode} (c : Config) (M : Nat)

theorem decodeThree_answersInOrder {mk : Mode → Mode → Mode → Instr} (hn : op.nParams = 3) (hd : op.dest = some 3)
    (hmk : ∀ m1 m2 m3, (mk m1 m2 m3).opcode = op) : answersInOrder c op M (decodeThree c M mk) := by
  have hbad := Opcode.badDigit_three hn M
  have himm := Opcode.immediateDest_some hd c M
  have hextra : op.extraDigits c M ↔ c.unusedModeDigits = .fault ∧ M / 10 ^ 3 ≠ 0 := by rw [Opcode.extraDigits, hn]
  rw [decodeThree]
  obtain ⟨h1, e1⟩ | ⟨h1, m1, e1⟩ := decodeSource_cases M 0
  · rw [e1]; exact hbad.mpr (.inl h1)
  obtain ⟨h2, e2⟩ | ⟨h2, m2, e2⟩ := decodeSource_cases M 1
  · rw [e1, e2]; exact hbad.mpr (.inr (.inl h2))
  obtain ⟨h3, e3⟩ | ⟨h3, hi, e3⟩ | ⟨h3, hi, m3, e3⟩ := decodeDest_cases c M 2
  · rw [e1, e2, e3]; exact hbad.mpr (.inr (.inr h3))
  · rw [e1, e2, e3]; exact ⟨by rw [hbad]; simp [h1, h2, h3], himm.mpr hi⟩
  have hgood : ¬ op.badDigit M := by rw [hbad]; simp [h1, h2, h3]
  obtain ⟨hu, eu⟩ | ⟨hu, eu⟩ := checkUnused_cases c M 3
  · rw [e1, e2, e3, eu]; exact ⟨hgood, himm.not.mpr hi, hextra.mpr hu⟩
  · rw [e1, e2, e3, eu]; exact ⟨hmk m1 m2 m3, hgood, himm.not.mpr hi, hextra.not.mpr hu⟩

theorem decodeTwo_answersInOrder {mk : Mode → Mode → Instr} (hn : op.nParams = 2) (hd : op.dest = none)
    (hmk : ∀ m1 m2, (mk m1 m2).opcode = op) : answersInOrder c op M (decodeTwo c M mk) := by
  have hbad := Opcode.badDigit_two hn M
  have himm := Opcode.not_immediateDest_of_none hd c M
  have hextra : op.extraDigits c M ↔ c.unusedModeDigits = .fault ∧ M / 10 ^ 2 ≠ 0 := by rw [Opcode.extraDigits, hn]
  rw [decodeTwo]
  obtain ⟨h1, e1⟩ | ⟨h1, m1, e1⟩ := decodeSource_cases M 0
  · rw [e1]; exact hbad.mpr (.inl h1)
  obtain ⟨h2, e2⟩ | ⟨h2, m2, e2⟩ := decodeSource_cases M 1
  · rw [e1, e2]; exact hbad.mpr (.inr h2)
  have hgood : ¬ op.badDigit M := by rw [hbad]; simp [h1, h2]
  obtain ⟨hu, eu⟩ | ⟨hu, eu⟩ := checkUnused_cases c M 2
  · rw [e1, e2, eu]; exact ⟨hgood, himm, hextra.mpr hu⟩
  · rw [e1, e2, eu]; exact ⟨hmk m1 m2, hgood, himm, hextra.not.mpr hu⟩

theorem decodeOne_answersInOrder {mk : Mode → Instr} (hn : op.nParams = 1) (hd : op.dest = none)
    (hmk : ∀ m1, (mk m1).opcode = op) : answersInOrder c op M (decodeOne c M mk) := by
  have hbad := Opcode.badDigit_one hn M
  have himm := Opcode.not_immediateDest_of_none hd c M
  have hextra : op.extraDigits c M ↔ c.unusedModeDigits = .fault ∧ M / 10 ^ 1 ≠ 0 := by rw [Opcode.extraDigits, hn]
  rw [decodeOne]
  obtain ⟨h1, e1⟩ | ⟨h1, m1, e1⟩ := decodeSource_cases M 0
  · rw [e1]; exact hbad.mpr h1
  obtain ⟨hu, eu⟩ | ⟨hu, eu⟩ := checkUnused_cases c M 1
  · rw [e1, eu]; exact ⟨hbad.not.mpr h1, himm, hextra.mpr hu⟩
  · rw [e1, eu]; exact ⟨hmk m1, hbad.not.mpr h1, himm, hextra.not.mpr hu⟩

theorem decodeOneDest_answersInOrder {mk : Mode → Instr} (hn : op.nParams = 1) (hd : op.dest = some 1)
    (hmk : ∀ m1, (mk m1).opcode = op) : answersInOrder c op M (decodeOneDest c M mk) := by
  have hbad := Opcode.badDigit_one hn M
  have himm := Opcode.immediateDest_some hd c M
  have hextra : op.extraDigits c M ↔ c.unusedModeDigits = .fault ∧ M / 10 ^ 1 ≠ 0 := by rw [Opcode.extraDigits, hn]
  rw [decodeOneDest]
  obtain ⟨h1, e1⟩ | ⟨h1, hi, e1⟩ | ⟨h1, hi, m1, e1⟩ := decodeDest_cases c M 0
  · rw [e1]; exact hbad.mpr h1
  · rw [e1]; exact ⟨hbad.not.mpr h1, himm.mpr hi⟩
  obtain ⟨hu, eu⟩ | ⟨hu, eu⟩ := checkUnused_cases c M 1
  · rw [e1, eu]; exact ⟨hbad.not.mpr h1, himm.not.mpr hi, hextra.mpr hu⟩
  · rw [e1, eu]; exact ⟨hmk m1, hbad.not.mpr h1, himm.not.mpr hi, hextra.not.mpr hu⟩

theorem decodeHalt_answersInOrder : answersInOrder c .halt M (decodeModes c .halt M) := by
  have hgood : ¬ Opcode.halt.badDigit M := fun ⟨k, hk, _⟩ => Nat.not_lt_zero k hk
  have himm := Opcode.not_immediateDest_of_none (op := .halt) rfl c M
  rw [decodeModes]
  obtain ⟨hu, eu⟩ | ⟨hu, eu⟩ := checkUnused_cases c M 0
  · rw [eu]; exact ⟨hgood, himm, hu⟩
  · rw [eu]; exact ⟨rfl, hgood, himm, hu⟩

end

theorem decodeModes_answersInOrder (c : Config) (op : Opcode) (M : Nat) :
    answersInOrder c op M (decodeModes c op M) := by
  cases op with
  | add => exact decodeThree_answersInOrder c M rfl rfl (fun _ _ _ => rfl)
  | mul => exact decodeThree_answersInOrder c M rfl rfl (fun _ _ _ => rfl)
  | lt => exact decodeThree_answersInOrder c M rfl rfl (fun _ _ _ => rfl)
  | eq => exact decodeThree_answersInOrder c M rfl rfl (fun _ _ _ => rfl)
  | jt => exact decodeTwo_answersInOrder c M rfl rfl (fun _ _ => rfl)
  | jf => exact decodeTwo_answersInOrder c M rfl rfl (fun _ _ => rfl)
  | out => exact decodeOne_answersInOrder c M rfl rfl (fun _ => rfl)
  | arb => exact decodeOne_answersInOrder c M rfl rfl (fun _ => rfl)
  | inp => exact decodeOneDest_answersInOrder c M rfl rfl (fun _ => rfl)
  | halt => exact decodeHalt_answersInOrder c M

/-! The opcode. -/

/-- The opcode map has no other value (R55). -/
theorem Opcode.ofNumber?_eq_none {n : Nat} : Opcode.ofNumber? n = none ↔ n ∉ [1, 2, 3, 4, 5, 6, 7, 8, 9, 99] := by
  simp [Opcode.ofNumber?, Opcode.all, Opcode.number, @eq_comm ℕ n]

/-- The decoder of a word whose opcode is in the map is the mode checks of that operation. -/
theorem decode_eq_decodeModes {c : Config} {w : Word} {op : Opcode} (hpos : 0 ≤ w.toInt)
    (hop : op.number = w.toInt.toNat % 100) : decode c w = decodeModes c op (w.toInt.toNat / 100) := by
  rw [decode, if_neg (not_lt.mpr hpos), decodeNumber, ← hop, Opcode.ofNumber?_number]

/-- Only the opcode raises `BadOpcode`: the mode checks have other faults. -/
theorem decode_badOpcode_iff {c : Config} {w : Word} :
    decode c w = .error .badOpcode ↔ w.toInt < 0 ∨ w.toInt.toNat % 100 ∉ [1, 2, 3, 4, 5, 6, 7, 8, 9, 99] := by
  rw [← Opcode.ofNumber?_eq_none]
  by_cases hneg : w.toInt < 0
  · exact iff_of_true (if_pos hneg) (.inl hneg)
  · rw [decode, if_neg hneg, decodeNumber, or_iff_right hneg]
    cases hop : Opcode.ofNumber? (w.toInt.toNat % 100) with
    | none => exact iff_of_true rfl rfl
    | some op =>
      have horder := decodeModes_answersInOrder c op (w.toInt.toNat / 100)
      exact iff_of_false (fun h : decodeModes c op _ = _ => by rw [h] at horder; exact horder) (by simp)

/-- The answers in the order of R53 exclude each other, so each of them holds exactly where its condition does. -/
theorem answersInOrder_iff {c : Config} {op : Opcode} {M : Nat} {r : Except DecodeFault Instr}
    (h : answersInOrder c op M r) :
    (r = .error .badMode ↔ op.badDigit M) ∧
      (r = .error .immediateDestination ↔ ¬ op.badDigit M ∧ op.immediateDest c M) ∧
      (r = .error .unusedModeDigits ↔ ¬ op.badDigit M ∧ ¬ op.immediateDest c M ∧ op.extraDigits c M) ∧
      ((∃ i, r = .ok i ∧ i.opcode = op) ↔ ¬ op.badDigit M ∧ ¬ op.immediateDest c M ∧ ¬ op.extraDigits c M) := by
  cases r with
  | ok i => obtain ⟨hop, hbad, himm, hextra⟩ := h; simp [hop, hbad, himm, hextra]
  | error f =>
    cases f with
    | badOpcode => exact h.elim
    | badMode => have hbad : op.badDigit M := h; simp [hbad]
    | immediateDestination => obtain ⟨hbad, himm⟩ := h; simp [hbad, himm]
    | unusedModeDigits => obtain ⟨hbad, himm, hextra⟩ := h; simp [hbad, himm, hextra]

/-- Settles O13: a word outside the opcode map is `BadOpcode`, and for every other word the mode checks answer in the order of
R53. -/
theorem decodeFaultsInOrder : Obligations.DecodeFaultsInOrder := by
  unfold Obligations.DecodeFaultsInOrder
  refine fun c w => ⟨decode_badOpcode_iff, fun op hgood hop => ?_⟩
  rw [decode_eq_decodeModes (not_lt.mp (fun hneg => hgood (.inl hneg))) hop]
  exact answersInOrder_iff (decodeModes_answersInOrder c op _)

/-- Settles O14, word by word, by evaluating the decoder. -/
theorem specWordsDecodeAsWritten : Obligations.SpecWordsDecodeAsWritten := by
  unfold Obligations.SpecWordsDecodeAsWritten
  exact ⟨by decide, by decide, by decide, by decide, by decide, by decide, by decide, by decide, by decide, by decide,
    by decide, by decide, by decide, by decide⟩

end Sys2Proof

namespace Sys2Proof.Machine

/-! Assembled words (R60). -/

theorem allWords_length {os : List (Option Word)} {ws : List Word} (h : allWords os = some ws) : ws.length = os.length := by
  induction os generalizing ws with
  | nil => cases h; rfl
  | cons o os ih =>
    cases o with
    | none => cases h
    | some w =>
      obtain ⟨rest, hrest, rfl⟩ := Option.map_eq_some_iff.mp h
      exact congrArg (· + 1) (ih hrest)

/-- Settles O53: the first word is the sum of R59 for the modes written, and each operand adds one word. -/
theorem assembledInstructionIsCanonical : Obligations.AssembledInstructionIsCanonical := by
  unfold Obligations.AssembledInstructionIsCanonical
  intro table i operands words hmodes h
  rw [AsmItem.words] at h
  split at h
  · next hcount =>
    obtain ⟨params, hparams, rfl⟩ := Option.map_eq_some_iff.mp h
    have hlen : params.length = i.opcode.nParams := by
      rw [allWords_length hparams, List.length_map, hcount]
    refine ⟨?_, ?_⟩
    · rw [List.length_cons, hlen, Opcode.length, Nat.add_comm]
    · rw [← hmodes]; rfl
  · cases h

end Sys2Proof.Machine
end

section
/-! PROOFS. Fetch, decode and the faults of a step (20_memory.md R36, 40_machine_loop.md R64, R71, 60_exceptions.md R89). -/

namespace Sys2Proof.Machine

theorem fetchInstr_ok_iff {s : State} {i : Instr} :
    fetchInstr s = .ok i ↔
      s.accessible s.ptr.toInt ∧ decode s.cfg (s.mem.read s.ptr.toInt.toNat) = .ok i := by
  rw [fetchInstr_eq]
  by_cases h : s.accessible s.ptr.toInt
  · rw [if_pos h]
    cases hd : decode s.cfg (s.mem.read s.ptr.toInt.toNat) with
    | ok j => simp only [Except.ok.injEq]; exact (and_iff_right h).symm
    | error f => simp
  · rw [if_neg h]
    exact iff_of_false (by simp) (fun hfetch => h hfetch.1)

theorem fetchInstr_of_not_accessible {s : State} (h : ¬ s.accessible s.ptr.toInt) :
    fetchInstr s = .error (addressFault s.ptr.toInt) := by
  rw [fetchInstr_eq, if_neg h]

theorem fetchInstr_of_decode_error {s : State} {f : DecodeFault} (h : s.accessible s.ptr.toInt)
    (hd : decode s.cfg (s.mem.read s.ptr.toInt.toNat) = .error f) :
    fetchInstr s = .error (decodeRaised f (s.mem.read s.ptr.toInt.toNat)) := by
  rw [fetchInstr_eq, if_pos h, hd]

theorem step_of_fetch_error {s : State} {f : Raised} (hs : s.status = .running) (h : fetchInstr s = .error f) :
    step s = .next (s.takeFault f) := by
  rw [step_running hs, h, runFetched]

theorem addressFault_of_neg {a : Int} (h : a < 0) : addressFault a = { code := .indexFault, info := .value a } :=
  if_neg (fun hr => not_lt.mpr hr.1 h)

theorem addressFault_of_range {a : Int} (h : 0 ≤ a ∧ a ≤ addrMax) :
    addressFault a = { code := .capacityFault, info := .value a } := if_pos h

/-- No fetch goes to a negative `ptr` (R36; decision D24). -/
theorem step_of_ptr_neg {s : State} (hs : s.status = .running) (hneg : s.ptr.toInt < 0) :
    step s = .next (s.takeFault { code := .indexFault, info := .value s.ptr.toInt }) := by
  have hfetch := fetchInstr_of_not_accessible (s := s) (fun h => not_lt.mpr h.1 hneg)
  rw [addressFault_of_neg hneg] at hfetch
  exact step_of_fetch_error hs hfetch

/-- Settles O15: a fetch that decodes hands its instruction to `exec`. -/
theorem stepRunsDecodedInstruction : Obligations.StepRunsDecodedInstruction := by
  unfold Obligations.StepRunsDecodedInstruction
  intro s i hs hacc hd
  rw [step_running hs, fetchInstr_ok_iff.mpr ⟨hacc, hd⟩, runFetched]

/-- Settles O16: the three ways in which a fetch fails, each taken by the step. -/
theorem stepTakesFetchAndDecodeFaults : Obligations.StepTakesFetchAndDecodeFaults := by
  unfold Obligations.StepTakesFetchAndDecodeFaults
  refine fun s hs => ⟨step_of_ptr_neg hs, fun hpos hgrow => ?capacity,
    fun f hacc hd => step_of_fetch_error hs (fetchInstr_of_decode_error hacc hd)⟩
  have hfetch := fetchInstr_of_not_accessible (s := s) (fun h => hgrow h.2.2)
  rw [addressFault_of_range ⟨hpos, (Word.toInt_range s.ptr).2⟩] at hfetch
  exact step_of_fetch_error hs hfetch

/-- Settles O17: above the tape the word is 0, whose opcode 0 is not in the opcode map. -/
theorem runningOffTheTapeIsBadOpcode : Obligations.RunningOffTheTapeIsBadOpcode := by
  unfold Obligations.RunningOffTheTapeIsBadOpcode
  intro s hs hacc hlen
  have hread : s.mem.read s.ptr.toInt.toNat = 0#64 := Memory.read_of_len_le (by omega)
  have hd : decode s.cfg 0#64 = .error .badOpcode := decode_badOpcode_iff.mpr (.inr (by decide))
  rw [step_of_fetch_error hs (fetchInstr_of_decode_error hacc (hread ▸ hd)), hread]
  rfl

/-- Settles O19: a step comes to a fault by taking it in the state before the step. -/
theorem faultingStepCommitsNothing : Obligations.FaultingStepCommitsNothing := by
  unfold Obligations.FaultingStepCommitsNothing
  intro s t hs h ht
  obtain ⟨f, rfl⟩ := step_faulted hs h ht
  exact ⟨f.code, f.info, rfl⟩

end Sys2Proof.Machine
end

section
/-! PROOFS. Frames: what an instruction and a step leave unchanged (40_machine_loop.md section 3, 10_state.md sections 1 to 4). -/

namespace Sys2Proof.Machine

/-- Only IN takes a message, and only the head of the inbound FIFO (R77). -/
theorem Wrote.inq_cases {s u : State} {i : Instr} {next : Int} (h : Wrote s i u next) :
    u.inq = s.inq ∨ ∃ m1 msg, i = .inp m1 ∧ s.inq = msg :: u.inq := by
  cases h with
  | input _ hq => exact .inr ⟨_, _, rfl, hq⟩
  | store => exact .inl rfl
  | send => exact .inl rfl
  | discard => exact .inl rfl
  | jump => exact .inl rfl
  | base => exact .inl rfl
  | halt => exact .inl rfl

/-- Only ARB changes `rel` (R83). -/
theorem Wrote.rel_cases {s u : State} {i : Instr} {next : Int} (h : Wrote s i u next) :
    u.rel = s.rel ∨ ∃ m1, i = .arb m1 ∧ u.rel.toInt = s.rel.toInt + (operandValue s 1 m1).toInt := by
  cases h with
  | base _ hr => exact .inr ⟨_, rfl, hr⟩
  | store => exact .inl rfl
  | input => exact .inl rfl
  | send => exact .inl rfl
  | discard => exact .inl rfl
  | jump => exact .inl rfl
  | halt => exact .inl rfl

/-- The status, the record and the machine's endpoints of `s` stand in `t` too. -/
def State.sameRun (s t : State) : Prop :=
  t.status = s.status ∧ t.fault = s.fault ∧ t.outClosed = s.outClosed ∧ t.inReaderGone = s.inReaderGone

/-- `t` has ended where `s` was: `ptr` stands still, both endpoints are dropped, and only a fault has a record (R71, R89). -/
def State.endsAs (s t : State) : Prop :=
  t.status ≠ .running ∧ t.ptr = s.ptr ∧ t.outClosed = true ∧ t.inReaderGone = true ∧
    (t.status ≠ .faulted → t.fault = s.fault)

theorem State.endsAs_takeFault (s : State) (f : Raised) : s.endsAs (s.takeFault f) :=
  ⟨Status.noConfusion, rfl, rfl, rfl, fun h => absurd rfl h⟩

theorem Wrote.sameRun_or_endsAs {s u : State} {i : Instr} {next : Int} (h : Wrote s i u next) :
    s.sameRun (u.advance next) ∨ s.endsAs (u.advance next) := by
  obtain ⟨hptr, hstatus, hfault, -, hreader, hclosed, -, -⟩ := h.frame
  obtain ⟨-, hadvance⟩ | ⟨-, hadvance⟩ := State.advance_cases u next
  · rw [hadvance]; exact .inr ⟨Status.noConfusion, hptr, rfl, rfl, fun _ => hfault⟩
  · rw [hadvance]; exact .inl ⟨hstatus, hfault, hclosed, hreader⟩

/-- Settles O37, by cases on what the instruction comes to: a fault, a hold and an end of input leave both queues, and a body that
completes has its own frame. -/
theorem instructionFrame : Obligations.InstructionFrame := by
  unfold Obligations.InstructionFrame
  intro s t i h
  obtain ⟨f, rfl⟩ | ⟨rfl, -⟩ | ⟨rfl, -⟩ | ⟨u, next, rfl, hw⟩ := exec_cases h
  · exact ⟨rfl, rfl, rfl, .inl rfl, .inl rfl, .inr (s.endsAs_takeFault f)⟩
  · exact ⟨rfl, rfl, rfl, .inl rfl, .inl rfl, .inl ⟨rfl, rfl, rfl, rfl⟩⟩
  · exact ⟨rfl, rfl, rfl, .inl rfl, .inl rfl, .inr ⟨Status.noConfusion, rfl, rfl, rfl, fun _ => rfl⟩⟩
  · obtain ⟨-, -, -, hclosed, -, -, hgone, hcfg⟩ := hw.frame
    have hrun := hw.sameRun_or_endsAs
    rw [State.advance_cfg, State.advance_inClosed, State.advance_outReaderGone, State.advance_inq, State.advance_outq]
    exact ⟨hcfg, hclosed, hgone, hw.inq_cases, hw.outq_cases, hrun⟩

/-- Settles O18: an ended machine's step answers its own state, and a step that ends a running one took a fault, or ran an
instruction that ends it. -/
theorem endedMachineNeverChanges : Obligations.EndedMachineNeverChanges := by
  unfold Obligations.EndedMachineNeverChanges
  refine ⟨fun s t hs h => ?_, fun s _ => step_answers s, fun s t hs h ht => ?_⟩
  · rw [step_ended hs] at h; cases h; rfl
  · obtain ⟨hended, -⟩ | ⟨-, f, -, rfl⟩ | ⟨-, i, -, hexec⟩ := step_cases h
    · exact absurd hs hended
    · exact ⟨rfl, rfl⟩
    · obtain ⟨-, -, -, -, -, ⟨hsame, -⟩ | ⟨-, -, hout, hin, -⟩⟩ := instructionFrame s t i hexec
      · exact absurd (hsame.trans hs) ht
      · exact ⟨hout, hin⟩

/-- Settles O38: of all that a step can do, only a completed ARB leaves another `rel`. -/
theorem relChangesOnlyByArb : Obligations.RelChangesOnlyByArb := by
  unfold Obligations.RelChangesOnlyByArb
  intro s t h hrel
  obtain ⟨-, rfl⟩ | ⟨-, f, -, rfl⟩ | ⟨-, i, hfetch, hexec⟩ := step_cases h
  · exact absurd rfl hrel
  · exact absurd rfl hrel
  · obtain ⟨f, rfl⟩ | ⟨rfl, -⟩ | ⟨rfl, -⟩ | ⟨u, next, rfl, hw⟩ := exec_cases hexec
    · exact absurd rfl hrel
    · exact absurd rfl hrel
    · exact absurd rfl hrel
    · rw [State.advance_rel] at hrel ⊢
      obtain hsame | ⟨m1, rfl, hr⟩ := hw.rel_cases
      · exact absurd hsame hrel
      · exact ⟨m1, (fetchInstr_ok_iff.mp hfetch).2, hr⟩

/-- Settles O46: an ended machine and a fault leave the channels, and an instruction has its frame. -/
theorem coreNeverTouchesTheHostSide : Obligations.CoreNeverTouchesTheHostSide := by
  unfold Obligations.CoreNeverTouchesTheHostSide
  intro s t h
  have hnone : (∃ taken, s.inq = taken ++ s.inq ∧ taken.length ≤ 1) ∧ ∃ sent, s.outq = s.outq ++ sent ∧ sent.length ≤ 1 :=
    ⟨⟨[], rfl, Nat.zero_le _⟩, ⟨[], (List.append_nil _).symm, Nat.zero_le _⟩⟩
  obtain ⟨-, rfl⟩ | ⟨-, f, -, rfl⟩ | ⟨-, i, -, hexec⟩ := step_cases h
  · exact ⟨rfl, rfl, rfl, hnone⟩
  · exact ⟨rfl, rfl, rfl, hnone⟩
  · obtain ⟨hcfg, hclosed, hgone, hinq, houtq, -⟩ := instructionFrame s t i hexec
    refine ⟨hclosed, hgone, hcfg, ?_, ?_⟩
    · obtain hsame | ⟨-, msg, -, htaken⟩ := hinq
      · exact ⟨[], hsame.symm, Nat.zero_le _⟩
      · exact ⟨[msg], htaken, Nat.le_refl _⟩
    · obtain hsame | ⟨m1, -, hsent⟩ := houtq
      · exact ⟨[], hsame.trans (List.append_nil _).symm, Nat.zero_le _⟩
      · exact ⟨_, hsent, Nat.le_refl _⟩

end Sys2Proof.Machine
end

section
/-! PROOFS. The next pointer (40_machine_loop.md R65, R70). -/

namespace Sys2Proof

theorem Opcode.length_le (op : Opcode) : op.length ≤ 4 := by cases op <;> decide

end Sys2Proof

namespace Sys2Proof.Machine

/-- `i` is a jump whose condition holds in `s`, to the word `target` (43_jumps.md R79, R80). -/
def Instr.jumpsTo (s : State) (i : Instr) (target : Word) : Prop :=
  ∃ m1 m2, target = operandValue s 2 m2 ∧
    ((i = .jt m1 m2 ∧ operandValue s 1 m1 ≠ 0#64) ∨ (i = .jf m1 m2 ∧ operandValue s 1 m1 = 0#64))

/-- `next` is past the words of `i`, the last of which is in the address space (R70). -/
def Instr.passesTo (s : State) (i : Instr) (next : Int) : Prop :=
  2 ≤ i.opcode.length ∧ next = s.ptr.toInt + (i.opcode.length : Int) ∧ next ≤ addrMax + 1

/-- A parameter that resolves has its slot in the address space. -/
theorem State.resolvable_slot_le {s : State} {k : Nat} {m : Mode} (h : s.resolvable k m) :
    s.ptr.toInt + (k : Int) ≤ addrMax := by
  obtain ⟨⟨-, hslot, -⟩, -⟩ := h
  exact hslot

/-- An instruction whose last parameter is `k` passes to the word after that parameter. -/
theorem Instr.passesTo_of_resolvable {s : State} {i : Instr} {k : Nat} {m : Mode} {next : Int} (h : s.resolvable k m)
    (hk : 1 ≤ k) (hlen : i.opcode.length = k + 1) (hnext : next = s.ptr.toInt + ((k + 1 : Nat) : Int)) :
    Instr.passesTo s i next := by
  have hslot := State.resolvable_slot_le h
  exact ⟨by omega, hlen ▸ hnext, by omega⟩

/-- Everything the next pointer of a completing instruction can be: HALT's own, past the words, or the target of a taken jump. -/
theorem Wrote.next_cases {s u : State} {i : Instr} {next : Int} (h : Wrote s i u next) :
    (i = .halt ∧ next = s.ptr.toInt) ∨ Instr.passesTo s i next ∨
      ∃ target : Word, next = target.toInt ∧ Instr.jumpsTo s i target := by
  cases h with
  | halt => exact .inl ⟨rfl, rfl⟩
  | store hi _ _ h3 =>
    refine .inr (.inl (Instr.passesTo_of_resolvable h3 (by decide) ?_ rfl))
    obtain ⟨rfl, -⟩ | ⟨rfl, -⟩ | ⟨rfl, -⟩ | ⟨rfl, -⟩ := hi
    · rfl
    · rfl
    · rfl
    · rfl
  | input h1 => exact .inr (.inl (Instr.passesTo_of_resolvable h1 (Nat.le_refl _) rfl rfl))
  | send h1 => exact .inr (.inl (Instr.passesTo_of_resolvable h1 (Nat.le_refl _) rfl rfl))
  | discard h1 => exact .inr (.inl (Instr.passesTo_of_resolvable h1 (Nat.le_refl _) rfl rfl))
  | base h1 => exact .inr (.inl (Instr.passesTo_of_resolvable h1 (Nat.le_refl _) rfl rfl))
  | jump hi _ h2 =>
    obtain ⟨rfl, rfl⟩ | ⟨rfl, rfl⟩ := hi
    · split
      · next htaken =>
        rw [conditionTrue_eq, decide_eq_true_eq] at htaken
        exact .inr (.inr ⟨_, rfl, _, _, rfl, .inl ⟨rfl, htaken⟩⟩)
      · exact .inr (.inl (Instr.passesTo_of_resolvable h2 (by decide) rfl rfl))
    · split
      · next htaken =>
        rw [conditionFalse_eq, decide_eq_true_eq] at htaken
        exact .inr (.inr ⟨_, rfl, _, _, rfl, .inr ⟨rfl, htaken⟩⟩)
      · exact .inr (.inl (Instr.passesTo_of_resolvable h2 (by decide) rfl rfl))

/-- A pointer past the words of an instruction is moved to, as R70 has it. -/
theorem Instr.passesTo.movedTo {s t : State} {i : Instr} {next : Int} (h : Instr.passesTo s i next)
    (ht : t.ptr = nextPointer s.ptr next) : t.movedTo next := by
  obtain ⟨-, hnext, -⟩ := h
  have hmin := (Word.toInt_range s.ptr).1
  exact State.movedTo_of_ptr ht (by omega)

/-- A step that moves `ptr` leaves another word in it, past the top too: there the new one is negative and the old one was not
(log 4). -/
theorem Wrote.nextPointer_ne {s u : State} {i : Instr} {next : Int} (h : Wrote s i u next) (hne : next ≠ s.ptr.toInt) :
    nextPointer s.ptr next ≠ s.ptr := by
  obtain ⟨-, hself⟩ | hpass | ⟨target, rfl, -⟩ := h.next_cases
  · exact absurd hself hne
  · intro hstill
    obtain ⟨hin, habove⟩ := hpass.movedTo (t := s) hstill.symm
    obtain ⟨hlen, hnext, hmax⟩ := hpass
    have hlength := i.opcode.length_le
    by_cases htop : next ≤ addrMax
    · exact hne (hin htop).symm
    · have hneg := habove (not_le.mp htop)
      simp only [addrMax] at htop
      omega
  · rw [nextPointer_toInt]
    exact fun hsame => hne (congrArg BitVec.toInt hsame)

/-- Everything the step of a running machine can come to. -/
theorem step_running_cases {s t : State} (hs : s.status = .running) (h : step s = .next t) :
    (∃ f, t = s.takeFault f) ∨
      ∃ i, s.accessible s.ptr.toInt ∧ decode s.cfg (s.mem.read s.ptr.toInt.toNat) = .ok i ∧
        ((t = s ∧ body i s = .ok .hold) ∨ t = s.terminate .inputClosed ∨
          ∃ u next, Wrote s i u next ∧
            ((next = s.ptr.toInt ∧ t = u.terminate .halted) ∨
              (next ≠ s.ptr.toInt ∧ t = { u with ptr := nextPointer s.ptr next }))) := by
  obtain ⟨hended, -⟩ | ⟨-, f, -, rfl⟩ | ⟨-, i, hfetch, hexec⟩ := step_cases h
  · exact absurd hs hended
  · exact .inl ⟨f, rfl⟩
  · obtain ⟨hacc, hd⟩ := fetchInstr_ok_iff.mp hfetch
    obtain ⟨f, rfl⟩ | hhold | ⟨rfl, -⟩ | ⟨u, next, rfl, hw⟩ := exec_cases hexec
    · exact .inl ⟨f, rfl⟩
    · exact .inr ⟨i, hacc, hd, .inl hhold⟩
    · exact .inr ⟨i, hacc, hd, .inr (.inl rfl)⟩
    · have hadvance := State.advance_cases u next
      obtain ⟨hptr, -⟩ := hw.frame
      rw [hptr] at hadvance
      exact .inr ⟨i, hacc, hd, .inr (.inr ⟨u, next, hw, hadvance⟩)⟩

/-- Settles O22: a next pointer equal to the starting one is HALT's, or the target of a taken jump; past its words an instruction
moves on. -/
theorem onlyHaltAndSelfJumpHalt : Obligations.OnlyHaltAndSelfJumpHalt := by
  unfold Obligations.OnlyHaltAndSelfJumpHalt
  intro s t hs h ht
  obtain ⟨f, rfl⟩ | ⟨i, -, hd, ⟨rfl, -⟩ | rfl | ⟨u, next, hw, ⟨hself, rfl⟩ | ⟨-, rfl⟩⟩⟩ :=
    step_running_cases hs h
  · exact Status.noConfusion ht
  · exact Status.noConfusion (hs.symm.trans ht)
  · exact Status.noConfusion ht
  · obtain ⟨hptr, -⟩ := hw.frame
    refine ⟨hptr, ?_⟩
    obtain ⟨rfl, -⟩ | ⟨hlen, hnext, -⟩ | ⟨target, htarget, m1, m2, rfl, hjump⟩ := hw.next_cases
    · exact .inl hd
    · omega
    · refine .inr ⟨m1, m2, BitVec.eq_of_toInt_eq (htarget.symm.trans hself), ?_⟩
      obtain ⟨rfl, hcond⟩ | ⟨rfl, hcond⟩ := hjump
      · exact .inl ⟨hd, hcond⟩
      · exact .inr ⟨hd, hcond⟩
  · obtain ⟨-, hstatus, -⟩ := hw.frame
    exact Status.noConfusion (hs.symm.trans (hstatus.symm.trans ht))

/-- Settles O59: the next pointer of a completing instruction, by cases; a negative `ptr` is no address. -/
theorem nextPointerPastTheTopIsNeverFetched : Obligations.NextPointerPastTheTopIsNeverFetched := by
  unfold Obligations.NextPointerPastTheTopIsNeverFetched
  refine ⟨fun s t i hs _ hd h ht => ?_, fun t hs hneg => ⟨_, step_of_ptr_neg hs hneg, rfl, rfl⟩⟩
  obtain ⟨f, rfl⟩ | ⟨j, -, hj, ⟨rfl, -⟩ | rfl | ⟨u, next, hw, ⟨-, rfl⟩ | ⟨hne, rfl⟩⟩⟩ :=
    step_running_cases hs h
  · exact Status.noConfusion ht
  · exact .inl rfl
  · exact Status.noConfusion ht
  · exact Status.noConfusion ht
  · cases hd.symm.trans hj
    obtain ⟨-, hself⟩ | hpass | ⟨target, rfl, m1, m2, rfl, hjump⟩ := hw.next_cases
    · exact absurd hself hne
    · have hmoved : ({ u with ptr := nextPointer s.ptr next } : State).movedTo next := hpass.movedTo rfl
      obtain ⟨-, rfl, hmax⟩ := hpass
      exact .inr (.inl ⟨hmax, hmoved⟩)
    · exact .inr (.inr ⟨m1, m2, nextPointer_toInt _ _, hjump⟩)

end Sys2Proof.Machine
end

section
/-! PROOFS. The instructions, where each completes and with what (41_arithmetic.md to 46_halt.md). -/

namespace Sys2Proof.Machine

/-! The end of an instruction, by what its body comes to. -/

theorem exec_of_body_error {i : Instr} {s : State} {f : Raised} (h : body i s = .error f) :
    exec i s = .next (s.takeFault f) := by
  rw [exec_eq_commit, h, commit_error]

/-- A body that returns a pointer above its own moves `ptr` there (R64, R70). -/
theorem exec_of_body_done {i : Instr} {s u : State} {k : Int} (h : body i s = .ok (.done u (s.ptr.toInt + k)))
    (hptr : u.ptr = s.ptr) (hk : 0 < k) :
    ∃ p, exec i s = .next { u with ptr := p } ∧ ({ u with ptr := p } : State).movedTo (s.ptr.toInt + k) := by
  have hmin := (Word.toInt_range s.ptr).1
  refine ⟨nextPointer u.ptr (s.ptr.toInt + k), ?_, State.movedTo_of_ptr (p := u.ptr) rfl (by omega)⟩
  rw [exec_eq_commit, h, commit_done, State.advance_by u k _ (by rw [hptr]) hk.ne']

/-- A body that returns another word than its own pointer puts it in `ptr` (R64). -/
theorem exec_of_body_word {i : Instr} {s u : State} {w : Word} (h : body i s = .ok (.done u w.toInt)) (hw : w ≠ u.ptr) :
    exec i s = .next { u with ptr := w } := by
  rw [exec_eq_commit, h, commit_done, State.advance_word u w hw]

/-! ADD, MUL, LT and EQ. -/

section
variable {i : Instr} {f : Word → Word → Except Raised Word} {m1 m2 m3 : Mode} {s : State}

theorem exec_store_completes {r : Word} (hbody : body i s = storeOfTwo f m1 m2 m3 s) (h1 : s.resolvable 1 m1)
    (h2 : s.resolvable 2 m2) (h3 : s.resolvable 3 m3) (hf : f (operandValue s 1 m1) (operandValue s 2 m2) = .ok r) :
    ∃ t, exec i s = .next t ∧ s.onlyMemPtr t ∧ t.movedTo (s.ptr.toInt + 4) ∧
      s.mem.stores t.mem (s.reach3 m1 m2 m3) (effectiveAddress s 3 m3).toNat r := by
  rw [storeOfTwo_eq, if_pos h1, if_pos h2, if_pos h3, hf] at hbody
  obtain ⟨p, hexec, hmoved⟩ := exec_of_body_done hbody rfl (by decide)
  exact ⟨_, hexec, rfl, hmoved, Memory.stores_write _ _ _ _ (s.address_le_reach3 m1 m2 m3)⟩

theorem exec_store_faults {e : Raised} (hbody : body i s = storeOfTwo f m1 m2 m3 s) (h1 : s.resolvable 1 m1)
    (h2 : s.resolvable 2 m2) (h3 : s.resolvable 3 m3) (hf : f (operandValue s 1 m1) (operandValue s 2 m2) = .error e) :
    exec i s = .next (s.takeFault e) := by
  rw [storeOfTwo_eq, if_pos h1, if_pos h2, if_pos h3, hf] at hbody
  exact exec_of_body_error hbody

end

/-- Settles O24: the exact sum passes the range check, and is the word stored. -/
theorem addCompletes : Obligations.AddCompletes := by
  unfold Obligations.AddCompletes
  intro s m1 m2 m3 h1 h2 h3 hmin hmax
  obtain ⟨t, hexec, honly, hmoved, hstores⟩ := exec_store_completes (i := .add m1 m2 m3)
    (f := fun x y => checkRange (sumOf x y)) rfl h1 h2 h3 (checkRange_of_range ⟨hmin, hmax⟩)
  exact ⟨t, _, hexec, honly, hmoved, toInt_ofInt_of_range ⟨hmin, hmax⟩, hstores⟩

/-- Settles O25: the exact product passes the range check, and is the word stored. -/
theorem mulCompletes : Obligations.MulCompletes := by
  unfold Obligations.MulCompletes
  intro s m1 m2 m3 h1 h2 h3 hmin hmax
  obtain ⟨t, hexec, honly, hmoved, hstores⟩ := exec_store_completes (i := .mul m1 m2 m3)
    (f := fun x y => checkRange (productOf x y)) rfl h1 h2 h3 (checkRange_of_range ⟨hmin, hmax⟩)
  exact ⟨t, _, hexec, honly, hmoved, toInt_ofInt_of_range ⟨hmin, hmax⟩, hstores⟩

/-- Settles O26: a comparison raises nothing, and its Boolean is stored as a word. -/
theorem compareCompletes : Obligations.CompareCompletes := by
  unfold Obligations.CompareCompletes
  intro s m1 m2 m3 h1 h2 h3
  refine ⟨?lt, ?eq⟩
  case lt =>
    obtain ⟨t, hexec, honly, hmoved, hstores⟩ := exec_store_completes (i := .lt m1 m2 m3)
      (f := fun x y => .ok (boolWord (lessThan x y))) rfl h1 h2 h3 rfl
    exact ⟨t, _, hexec, honly, hmoved, boolWord_toInt _, hstores⟩
  case eq =>
    obtain ⟨t, hexec, honly, hmoved, hstores⟩ := exec_store_completes (i := .eq m1 m2 m3)
      (f := fun x y => .ok (boolWord (equalTo x y))) rfl h1 h2 h3 rfl
    exact ⟨t, _, hexec, honly, hmoved, boolWord_toInt _, hstores⟩

/-! ARB. -/

/-- Settles O27: the exact sum passes the range check and is the new `rel`; the tape only grows. -/
theorem arbCompletes : Obligations.ArbCompletes := by
  unfold Obligations.ArbCompletes
  intro s m1 h1 hmin hmax
  have hr := checkRange_of_range (r := sumOf s.rel (operandValue s 1 m1)) ⟨hmin, hmax⟩
  have hbody : body (.arb m1) s = arbBody m1 s := rfl
  rw [arbBody_eq, if_pos h1, hr] at hbody
  obtain ⟨p, hexec, hmoved⟩ := exec_of_body_done hbody rfl (by decide)
  exact ⟨_, hexec, rfl, hmoved, toInt_ofInt_of_range ⟨hmin, hmax⟩, Memory.onlyGrows_growTo _ _⟩

/-- Settles O28: the range check refuses the exact result, before anything is written. -/
theorem overflowIsTakenAsFault : Obligations.OverflowIsTakenAsFault := by
  unfold Obligations.OverflowIsTakenAsFault
  intro s r hr
  refine ⟨fun m1 m2 m3 h1 h2 h3 => ⟨?add, ?mul⟩, fun m1 h1 => ?arb⟩
  case add =>
    rintro rfl
    exact exec_store_faults (f := fun x y => checkRange (sumOf x y)) rfl h1 h2 h3 (checkRange_of_not_range hr)
  case mul =>
    rintro rfl
    exact exec_store_faults (f := fun x y => checkRange (productOf x y)) rfl h1 h2 h3 (checkRange_of_not_range hr)
  case arb =>
    rintro rfl
    have hrange := checkRange_of_not_range (r := sumOf s.rel (operandValue s 1 m1)) hr
    have hbody : body (.arb m1) s = arbBody m1 s := rfl
    rw [arbBody_eq, if_pos h1, hrange] at hbody
    exact exec_of_body_error hbody

/-! JT and JF. -/

/-- A conditional jump whose operands resolve: not taken, taken, and taken to its own address (R79, R80, R65). -/
theorem exec_jump_completes {i : Instr} {taken : Word → Bool} {m1 m2 : Mode} {s : State}
    (hbody : body i s = jumpOn taken m1 m2 s) (h1 : s.resolvable 1 m1) (h2 : s.resolvable 2 m2) :
    ∃ t, exec i s = .next t ∧ s.mem.onlyGrows t.mem (max (s.reach 1 m1) (s.reach 2 m2)) ∧
      (taken (operandValue s 1 m1) = false → t = { s with mem := t.mem, ptr := t.ptr } ∧ t.movedTo (s.ptr.toInt + 3)) ∧
      (taken (operandValue s 1 m1) = true → operandValue s 2 m2 ≠ s.ptr →
        t = { s with mem := t.mem, ptr := operandValue s 2 m2 }) ∧
      (taken (operandValue s 1 m1) = true → operandValue s 2 m2 = s.ptr →
        t = { s with mem := t.mem, status := .halted, outClosed := true, inReaderGone := true }) := by
  have hgrows := Memory.onlyGrows_growTo s.mem (max (s.reach 1 m1) (s.reach 2 m2))
  cases htaken : taken (operandValue s 1 m1) with
  | false =>
    rw [jumpOn_eq, if_pos h1, if_pos h2, htaken] at hbody
    obtain ⟨p, hexec, hmoved⟩ := exec_of_body_done hbody rfl (by decide)
    exact ⟨_, hexec, hgrows, fun _ => ⟨rfl, hmoved⟩, fun h => Bool.noConfusion h, fun h => Bool.noConfusion h⟩
  | true =>
    by_cases hself : operandValue s 2 m2 = s.ptr
    · have hexec : exec i s = _ := exec_eq_commit i s
      rw [hbody, commit_jumpOn_self h1 h2 hself htaken] at hexec
      exact ⟨_, hexec, hgrows, fun h => Bool.noConfusion h, fun _ hne => absurd hself hne, fun _ _ => rfl⟩
    · rw [jumpOn_eq, if_pos h1, if_pos h2, if_pos htaken] at hbody
      exact ⟨_, exec_of_body_word hbody hself, hgrows, fun h => Bool.noConfusion h, fun _ _ => rfl, fun _ h => absurd h hself⟩

/-- Settles O29: the condition of JT holds of every word but 0. -/
theorem jtCompletes : Obligations.JtCompletes := by
  unfold Obligations.JtCompletes
  intro s m1 m2 h1 h2
  have hjump := exec_jump_completes (i := .jt m1 m2) (taken := conditionTrue) rfl h1 h2
  simpa only [conditionTrue_eq, decide_eq_true_eq, decide_eq_false_iff_not, ne_eq, not_not] using hjump

/-- Settles O30: the condition of JF holds of 0 alone. -/
theorem jfCompletes : Obligations.JfCompletes := by
  unfold Obligations.JfCompletes
  intro s m1 m2 h1 h2
  have hjump := exec_jump_completes (i := .jf m1 m2) (taken := conditionFalse) rfl h1 h2
  simpa only [conditionFalse_eq, decide_eq_true_eq, decide_eq_false_iff_not] using hjump

/-! IN and OUT. -/

theorem receive_of_cons {s : State} {msg : Message} {rest : List Message} (h : s.inq = msg :: rest) :
    receive s = .message msg rest := by
  rw [receive, h]

theorem receive_of_nil_open {s : State} (hq : s.inq = []) (hc : s.inClosed = false) : receive s = .hold := by
  rw [receive, hq, hc]; rfl

theorem receive_of_nil_closed {s : State} (hq : s.inq = []) (hc : s.inClosed = true) : receive s = .endOfInput := by
  rw [receive, hq, hc]; rfl

theorem parseInt_error {msg : Message} (h : parseInt? msg = none) :
    parseInt msg = .error { code := .parseFault, info := .message msg } := by
  rw [parseInt, h]

/-- Settles O31: the head of the inbound FIFO is received first, closed or not, and its value is stored. -/
theorem inCompletes : Obligations.InCompletes := by
  unfold Obligations.InCompletes
  intro s m1 msg rest v h1 hq hv
  have hbody : body (.inp m1) s = inBody m1 s := rfl
  rw [inBody_eq, if_pos h1, receive_of_cons hq] at hbody
  simp only [parseInt_ok.mpr hv] at hbody
  obtain ⟨p, hexec, hmoved⟩ := exec_of_body_done hbody rfl (by decide)
  exact ⟨_, hexec, rfl, hmoved, Memory.stores_write _ _ _ _ (s.address_le_reach 1 m1)⟩

/-- An IN with nothing to receive holds the machine (R67, R77). -/
theorem exec_inp_hold {s : State} {m1 : Mode} (h1 : s.resolvable 1 m1) (hq : s.inq = []) (hc : s.inClosed = false) :
    exec (.inp m1) s = .next s := by
  rw [exec_eq_commit]
  show commit s (inBody m1 s) = _
  rw [inBody_eq, if_pos h1, receive_of_nil_open hq hc]
  rfl

/-- Settles O32, by what `Receive` answers: hold, end of input, or a message that does not parse. -/
theorem inHoldsEndsOrFaults : Obligations.InHoldsEndsOrFaults := by
  unfold Obligations.InHoldsEndsOrFaults
  intro s m1 h1
  refine ⟨exec_inp_hold h1, fun hq hc => ?ended, fun msg rest hq hv => ?fault⟩
  case ended =>
    rw [exec_eq_commit]
    show commit s (inBody m1 s) = _
    rw [inBody_eq, if_pos h1, receive_of_nil_closed hq hc]
    rfl
  case fault =>
    have hbody : body (.inp m1) s = inBody m1 s := rfl
    rw [inBody_eq, if_pos h1, receive_of_cons hq] at hbody
    simp only [parseInt_error hv] at hbody
    exact exec_of_body_error hbody

/-- A FIFO has room when it is shorter than its depth, if it has one (R98). -/
theorem isFull_eq_false {depth : Option Nat} {q : List Message} :
    isFull depth q = false ↔ ∀ d, depth = some d → q.length < d := by
  cases depth with
  | none => simp [isFull]
  | some d => simp [isFull]

/-- Settles O33: with the receiver there and room in the FIFO, OUT sends. -/
theorem outCompletes : Obligations.OutCompletes := by
  unfold Obligations.OutCompletes
  intro s m1 h1 hgone hroom
  have hbody : body (.out m1) s = outBody m1 s := rfl
  rw [outBody_eq, if_pos h1, if_neg (hgone ▸ Bool.false_ne_true), isFull_eq_false.mpr hroom] at hbody
  obtain ⟨p, hexec, hmoved⟩ := exec_of_body_done hbody rfl (by decide)
  exact ⟨_, hexec, rfl, hmoved, Memory.onlyGrows_growTo _ _⟩

/-- Settles O34: a gone receiver is looked at before a full FIFO, and both before the message is sent. -/
theorem outFollowsOutputClosedAndDepth : Obligations.OutFollowsOutputClosedAndDepth := by
  unfold Obligations.OutFollowsOutputClosedAndDepth
  intro s m1 h1
  have hbody : body (.out m1) s = outBody m1 s := rfl
  rw [outBody_eq, if_pos h1] at hbody
  refine ⟨fun hgone hclosed => ?fault, fun hgone hclosed => ?discard, fun d hgone hdepth hfull => ?hold⟩
  case fault =>
    rw [if_pos hgone, hclosed] at hbody
    exact exec_of_body_error hbody
  case discard =>
    rw [if_pos hgone, hclosed] at hbody
    obtain ⟨p, hexec, hmoved⟩ := exec_of_body_done hbody rfl (by decide)
    exact ⟨_, hexec, rfl, hmoved, Memory.onlyGrows_growTo _ _⟩
  case hold =>
    have hisFull : isFull s.cfg.outDepth s.outq = true := by rw [hdepth]; exact decide_eq_true hfull
    rw [if_neg (hgone ▸ Bool.false_ne_true), if_pos hisFull] at hbody
    rw [exec_eq_commit, hbody, commit_hold]

/-! HALT. -/

/-- The word 99 is HALT under every parameter: it has no mode digit to refuse. -/
theorem decode_99 (c : Config) : decode c 99#64 = .ok .halt := decodeOfEncode c .halt rfl

/-- `1099` has a nonzero digit above the modes of HALT, which are none (R56). -/
theorem decode_1099 {c : Config} (h : c.unusedModeDigits = .fault) : decode c 1099#64 = .error .unusedModeDigits := by
  rw [decode_eq_decodeModes (op := .halt) (by decide) (by decide), decodeModes, checkUnused, if_pos ⟨h, by decide⟩]
  rfl

theorem Instr.modes_eq_nil (i : Instr) : i.modes = [] ↔ i = .halt := by
  constructor
  · intro h
    cases i with
    | halt => rfl
    | _ => cases h
  · rintro rfl; rfl

/-- Settles O35: HALT returns its own pointer; 99 is its word, and the two other words are refused by the decoder. -/
theorem haltStopsTheMachine : Obligations.HaltStopsTheMachine := by
  unfold Obligations.HaltStopsTheMachine
  refine ⟨exec_halt, fun s hs hacc hread => ⟨s.terminate .halted, ?_, rfl, rfl⟩, Instr.modes_eq_nil,
    fun c => decode_1099, fun c => decode_badOpcode_iff.mpr (.inl (by decide))⟩
  rw [stepRunsDecodedInstruction s .halt hs hacc (hread ▸ decode_99 s.cfg), exec_halt]

/-! Operands that do not resolve. -/

section
variable {s : State} {k : Nat} {m : Mode}

/-- The first parameter that does not resolve is number `k` (counted from 0), in mode `m`, of the modes `ms`. -/
def State.firstUnresolvable (s : State) (ms : List Mode) (k : Nat) (m : Mode) : Prop :=
  ms[k]? = some m ∧ ¬ s.resolvable (k + 1) m ∧ ∀ j m', j < k → ms[j]? = some m' → s.resolvable (j + 1) m'

theorem State.firstUnresolvable_one {m1 : Mode} (h : s.firstUnresolvable [m1] k m) :
    k = 0 ∧ m = m1 ∧ ¬ s.resolvable 1 m1 := by
  obtain ⟨hk, hbad, -⟩ := h
  match k with
  | 0 => cases hk; exact ⟨rfl, rfl, hbad⟩
  | k + 1 => cases hk

theorem State.firstUnresolvable_two {m1 m2 : Mode} (h : s.firstUnresolvable [m1, m2] k m) :
    (k = 0 ∧ m = m1 ∧ ¬ s.resolvable 1 m1) ∨ (k = 1 ∧ m = m2 ∧ s.resolvable 1 m1 ∧ ¬ s.resolvable 2 m2) := by
  obtain ⟨hk, hbad, hprev⟩ := h
  match k with
  | 0 => cases hk; exact .inl ⟨rfl, rfl, hbad⟩
  | 1 => cases hk; exact .inr ⟨rfl, rfl, hprev 0 m1 (by decide) rfl, hbad⟩
  | k + 2 => cases hk

theorem State.firstUnresolvable_three {m1 m2 m3 : Mode} (h : s.firstUnresolvable [m1, m2, m3] k m) :
    (k = 0 ∧ m = m1 ∧ ¬ s.resolvable 1 m1) ∨ (k = 1 ∧ m = m2 ∧ s.resolvable 1 m1 ∧ ¬ s.resolvable 2 m2) ∨
      (k = 2 ∧ m = m3 ∧ s.resolvable 1 m1 ∧ s.resolvable 2 m2 ∧ ¬ s.resolvable 3 m3) := by
  obtain ⟨hk, hbad, hprev⟩ := h
  match k with
  | 0 => cases hk; exact .inl ⟨rfl, rfl, hbad⟩
  | 1 => cases hk; exact .inr (.inl ⟨rfl, rfl, hprev 0 m1 (by decide) rfl, hbad⟩)
  | 2 =>
    cases hk
    exact .inr (.inr ⟨rfl, rfl, hprev 0 m1 (by decide) rfl, hprev 1 m2 (by decide) rfl, hbad⟩)
  | k + 3 => cases hk

theorem storeOfTwo_of_firstUnresolvable {f : Word → Word → Except Raised Word} {m1 m2 m3 : Mode}
    (h : s.firstUnresolvable [m1, m2, m3] k m) : storeOfTwo f m1 m2 m3 s = .error (resolveFault s (k + 1) m) := by
  rw [storeOfTwo_eq]
  obtain ⟨rfl, rfl, h1⟩ | ⟨rfl, rfl, h1, h2⟩ | ⟨rfl, rfl, h1, h2, h3⟩ := State.firstUnresolvable_three h
  · rw [if_neg h1]
  · rw [if_pos h1, if_neg h2]
  · rw [if_pos h1, if_pos h2, if_neg h3]

theorem jumpOn_of_firstUnresolvable {taken : Word → Bool} {m1 m2 : Mode} (h : s.firstUnresolvable [m1, m2] k m) :
    jumpOn taken m1 m2 s = .error (resolveFault s (k + 1) m) := by
  rw [jumpOn_eq]
  obtain ⟨rfl, rfl, h1⟩ | ⟨rfl, rfl, h1, h2⟩ := State.firstUnresolvable_two h
  · rw [if_neg h1]
  · rw [if_pos h1, if_neg h2]

theorem inBody_of_firstUnresolvable {m1 : Mode} (h : s.firstUnresolvable [m1] k m) :
    inBody m1 s = .error (resolveFault s (k + 1) m) := by
  obtain ⟨rfl, rfl, h1⟩ := State.firstUnresolvable_one h
  rw [inBody_eq, if_neg h1]

theorem outBody_of_firstUnresolvable {m1 : Mode} (h : s.firstUnresolvable [m1] k m) :
    outBody m1 s = .error (resolveFault s (k + 1) m) := by
  obtain ⟨rfl, rfl, h1⟩ := State.firstUnresolvable_one h
  rw [outBody_eq, if_neg h1]

theorem arbBody_of_firstUnresolvable {m1 : Mode} (h : s.firstUnresolvable [m1] k m) :
    arbBody m1 s = .error (resolveFault s (k + 1) m) := by
  obtain ⟨rfl, rfl, h1⟩ := State.firstUnresolvable_one h
  rw [arbBody_eq, if_neg h1]

theorem body_of_firstUnresolvable {i : Instr} (h : s.firstUnresolvable i.modes k m) :
    body i s = .error (resolveFault s (k + 1) m) := by
  cases i with
  | add m1 m2 m3 => exact storeOfTwo_of_firstUnresolvable (f := fun x y => checkRange (sumOf x y)) h
  | mul m1 m2 m3 => exact storeOfTwo_of_firstUnresolvable (f := fun x y => checkRange (productOf x y)) h
  | lt m1 m2 m3 => exact storeOfTwo_of_firstUnresolvable (f := fun x y => .ok (boolWord (lessThan x y))) h
  | eq m1 m2 m3 => exact storeOfTwo_of_firstUnresolvable (f := fun x y => .ok (boolWord (equalTo x y))) h
  | jt m1 m2 => exact jumpOn_of_firstUnresolvable h
  | jf m1 m2 => exact jumpOn_of_firstUnresolvable h
  | inp m1 => exact inBody_of_firstUnresolvable h
  | out m1 => exact outBody_of_firstUnresolvable h
  | arb m1 => exact arbBody_of_firstUnresolvable h
  | halt => cases h.1

end

/-- Settles O21, by the shape of the instruction: each resolves all of its parameters, in order, before anything else. -/
theorem operandFaultsInOrder : Obligations.OperandFaultsInOrder := by
  unfold Obligations.OperandFaultsInOrder
  intro s i k m hk hbad hprev
  exact exec_of_body_error (body_of_firstUnresolvable ⟨hk, hbad, hprev⟩)

end Sys2Proof.Machine
end

section
/-! PROOFS. Waiting (40_machine_loop.md R67, 60_exceptions.md R110): where the core is held, and what wakes it. -/

namespace Sys2Proof.Machine

theorem State.holding_iff {s : State} : s.holding = true ↔ s.status = .running ∧ step s = .next s := by
  have hstep := step_eq s
  simp [State.holding, hstep]

/-- The core is at an IN whose destination resolves, with nothing to receive and the channel open (R77). -/
def State.waitsForInput (s : State) : Prop :=
  s.status = .running ∧ s.accessible s.ptr.toInt ∧ s.inq = [] ∧ s.inClosed = false ∧
    ∃ m1, decode s.cfg (s.mem.read s.ptr.toInt.toNat) = .ok (.inp m1) ∧ s.resolvable 1 m1

/-- A step that leaves a running machine running and its `ptr` in place was held at an IN, where no outbound FIFO is full. -/
theorem waitsForInput_of_step {s t : State} (hdepth : s.cfg.outDepth = none) (hs : s.status = .running)
    (h : step s = .next t) (hptr : t.ptr = s.ptr) (ht : t.status = .running) : s.waitsForInput := by
  obtain ⟨f, rfl⟩ | ⟨i, hacc, hd, ⟨rfl, hhold⟩ | rfl | ⟨u, next, hw, ⟨-, rfl⟩ | ⟨hne, rfl⟩⟩⟩ :=
    step_running_cases hs h
  · exact Status.noConfusion ht
  · obtain ⟨m1, rfl, h1, hq, hc⟩ | ⟨m1, rfl, h1, hfull⟩ := body_hold hhold
    · exact ⟨hs, hacc, hq, hc, m1, hd, h1⟩
    · rw [hdepth] at hfull; exact Bool.noConfusion hfull
  · exact Status.noConfusion ht
  · exact Status.noConfusion ht
  · exact absurd hptr (hw.nextPointer_ne hne)

theorem State.waitsForInput.holding {s : State} (h : s.waitsForInput) : s.holding = true := by
  obtain ⟨hs, hacc, hq, hc, m1, hd, h1⟩ := h
  rw [State.holding_iff, stepRunsDecodedInstruction s (.inp m1) hs hacc hd]
  exact ⟨hs, exec_inp_hold h1 hq hc⟩

theorem State.holding_iff_waitsForInput {s : State} (hdepth : s.cfg.outDepth = none) :
    s.holding = true ↔ s.waitsForInput := by
  refine ⟨fun h => ?_, State.waitsForInput.holding⟩
  obtain ⟨hs, hstep⟩ := State.holding_iff.mp h
  exact waitsForInput_of_step hdepth hs hstep rfl hs

/-- Settles O43: a hold keeps `ptr` and the status, and of all that a step can do only an IN that waits keeps both. -/
theorem coreBlocksOnlyAtInput : Obligations.CoreBlocksOnlyAtInput := by
  unfold Obligations.CoreBlocksOnlyAtInput
  refine fun s hdepth => ⟨State.holding_iff_waitsForInput hdepth, fun t hs hfree h => ?_⟩
  by_contra hstuck
  rw [not_or, not_not, not_not] at hstuck
  obtain ⟨hptr, ht⟩ := hstuck
  have hhold := (waitsForInput_of_step hdepth hs h hptr ht).holding
  exact Bool.noConfusion (hhold.symm.trans hfree)

/-- The outbound side and the tape as they are, a message in the inbound FIFO or a closed channel is no wait. -/
theorem State.not_holding {s : State} (hdepth : s.cfg.outDepth = none) (h : s.inq ≠ [] ∨ s.inClosed = true) :
    s.holding = false := by
  rw [← Bool.not_eq_true, State.holding_iff_waitsForInput hdepth]
  rintro ⟨-, -, hq, hc, -⟩
  obtain h | h := h
  · exact h hq
  · exact Bool.noConfusion (hc.symm.trans h)

/-- Whether the core waits for input does not depend on the outbound channel. -/
theorem State.waitsForInput.withOutbound {s : State} (h : s.waitsForInput) (outq : List Message) (outReaderGone : Bool) :
    ({ s with outq := outq, outReaderGone := outReaderGone } : State).waitsForInput := h

/-- Settles O44: a push or a close ends the condition of the wait; a pop and a drop touch the outbound channel only, and the others
move nothing. -/
theorem pushOrCloseWakesTheCore : Obligations.PushOrCloseWakesTheCore := by
  unfold Obligations.PushOrCloseWakesTheCore
  intro s hout hin hreader hhold
  have hwaits := (State.holding_iff_waitsForInput hout).mp hhold
  have ⟨_, _, hq, hc, _⟩ := hwaits
  refine ⟨fun msg => ?push, ⟨rfl, State.not_holding hout (.inr rfl)⟩, ?pop,
    (hwaits.withOutbound s.outq true).holding, rfl, rfl⟩
  case push =>
    have hpush : (hostMove (.push msg) s).2 = { s with inq := [msg] } := by
      simp [hostMove, hostPush, hc, hreader, hin, hq, isFull]
    exact ⟨hpush, hpush ▸ State.not_holding hout (.inl (List.cons_ne_nil msg []))⟩
  case pop =>
    obtain ⟨-, hpop⟩ | ⟨m, rest, -, -, hpop⟩ | ⟨-, -, -, hpop⟩ | ⟨-, -, -, hpop⟩ := hostPop_cases s
    · rw [hostMove, hpop]; exact hhold
    · rw [hostMove, hpop]; exact (hwaits.withOutbound rest s.outReaderGone).holding
    · rw [hostMove, hpop]; exact hhold
    · rw [hostMove, hpop]; exact hhold

end Sys2Proof.Machine
end

section
/-! PROOFS. The memory controller and the resolver on any tape (20_memory.md R31 to R40). -/

namespace Sys2Proof.Machine

/-- A tape of `n` words fits exactly when the capacity, if there is one, is not below `n` (R32). -/
theorem fitsCapacity_iff {c : Config} {n : Nat} :
    fitsCapacity c n = true ↔ ∀ cap, c.memCapacity = some cap → n ≤ cap := by
  unfold fitsCapacity
  cases c.memCapacity with
  | none => simp
  | some cap => simp

/-- A machine with the tape `m` and the parameters `c`: the rules of an access are stated on a state. -/
def State.ofTape (c : Config) (m : Memory) : State := { State.reset with mem := m, cfg := c }

section
variable {c : Config} {m : Memory} {a : Int}

theorem State.ofTape_growable {n : Nat} :
    (State.ofTape c m).growable n ↔ n ≤ m.len ∨ ∀ cap, c.memCapacity = some cap → n ≤ cap :=
  or_congr_right fitsCapacity_iff

theorem memRead_eq (c : Config) (m : Memory) (a : Int) :
    memRead c m a =
      if (State.ofTape c m).accessible a then .ok (m.read a.toNat, m.growTo (a.toNat + 1)) else .error (addressFault a) := by
  have h := memRead_growTo (State.ofTape c m) 0 a (State.growable_zero _)
  rwa [growTo_zero, Nat.zero_max] at h

theorem memWrite_eq (c : Config) (m : Memory) (a : Int) (v : Word) :
    memWrite c m a v =
      if (State.ofTape c m).accessible a then .ok ((m.growTo (a.toNat + 1)).write a.toNat v)
      else .error (addressFault a) := by
  have h := memWrite_growTo (State.ofTape c m) 0 a v (State.growable_zero _)
  rwa [growTo_zero, Nat.zero_max] at h

/-- Outside the address space an access is an IndexFault (R31). -/
theorem addressFault_of_outside (h : a < 0 ∨ addrMax < a) :
    ¬ (State.ofTape c m).accessible a ∧ addressFault a = { code := .indexFault, info := .value a } := by
  have hout : ¬ (0 ≤ a ∧ a ≤ addrMax) := by omega
  exact ⟨fun hacc => hout ⟨hacc.1, hacc.2.1⟩, if_neg hout⟩

/-- In the address space, above the tape and past the capacity, an access is a CapacityFault (R32). -/
theorem addressFault_past_capacity (h0 : 0 ≤ a) (hmax : a ≤ addrMax) (hlen : m.len ≤ a)
    (hcap : ∃ cap : Nat, c.memCapacity = some cap ∧ (cap : Int) < a + 1) :
    ¬ (State.ofTape c m).accessible a ∧ addressFault a = { code := .capacityFault, info := .value a } := by
  obtain ⟨cap, hcap, hpast⟩ := hcap
  refine ⟨fun hacc => ?_, addressFault_of_range ⟨h0, hmax⟩⟩
  obtain hin | hfits := State.ofTape_growable.mp hacc.2.2
  · omega
  · have := hfits cap hcap; omega

theorem State.ofTape_accessible (h0 : 0 ≤ a) (hmax : a ≤ addrMax)
    (hroom : a < m.len ∨ ∀ cap : Nat, c.memCapacity = some cap → a + 1 ≤ cap) : (State.ofTape c m).accessible a := by
  refine ⟨h0, hmax, State.ofTape_growable.mpr ?_⟩
  obtain hin | hfits := hroom
  · exact .inl (by omega)
  · exact .inr (fun cap hcap => by have := hfits cap hcap; omega)

end

/-- Settles O4: an access that passes both checks reads the word and grows the tape past it, which is no growth inside it. -/
theorem memReadAnswers : Obligations.MemReadAnswers := by
  unfold Obligations.MemReadAnswers
  intro c m a
  refine ⟨fun hout => ?outside, fun h0 hmax hin => ?inside, fun h0 hmax hlen hroom => ?above, fun h0 hmax hlen hcap => ?past⟩
  case outside =>
    obtain ⟨hacc, hfault⟩ := addressFault_of_outside (c := c) (m := m) hout
    rw [memRead_eq, if_neg hacc, hfault]
  case inside =>
    rw [memRead_eq, if_pos (State.ofTape_accessible h0 hmax (.inl hin)), Memory.growTo_of_le m _ (by omega)]
  case above =>
    refine ⟨m.growTo (a.toNat + 1), ?_, ?_, Memory.read_growTo m _⟩
    · rw [memRead_eq, if_pos (State.ofTape_accessible h0 hmax (.inr hroom)), Memory.read_of_len_le (by omega)]
    · rw [Memory.growTo_len]; omega
  case past =>
    obtain ⟨hacc, hfault⟩ := addressFault_past_capacity h0 hmax hlen hcap
    rw [memRead_eq, if_neg hacc, hfault]

/-- Settles O5: an access that passes both checks grows the tape past the address and stores the one word. -/
theorem memWriteStoresOneWord : Obligations.MemWriteStoresOneWord := by
  unfold Obligations.MemWriteStoresOneWord
  intro c m a v
  refine ⟨fun hout => ?outside, fun h0 hmax hroom => ?stored, fun h0 hmax hlen hcap => ?past⟩
  case outside =>
    obtain ⟨hacc, hfault⟩ := addressFault_of_outside (c := c) (m := m) hout
    rw [memWrite_eq, if_neg hacc, hfault]
  case stored =>
    refine ⟨_, ?_, Memory.stores_write m _ _ v (Nat.le_refl _)⟩
    rw [memWrite_eq, if_pos (State.ofTape_accessible h0 hmax hroom)]
  case past =>
    obtain ⟨hacc, hfault⟩ := addressFault_past_capacity h0 hmax hlen hcap
    rw [memWrite_eq, if_neg hacc, hfault]

/-- The three answers of `Resolve`: the slot's fault, then the effective address's, then the address and the grown tape (R37). -/
theorem resolve_answers (s : State) (i : Nat) (m : Mode) :
    (¬ s.accessible (slotAddress s i) → resolve s s.mem i m = .error (addressFault (slotAddress s i))) ∧
    (s.accessible (slotAddress s i) → ¬ s.accessible (effectiveAddress s i m) →
      resolve s s.mem i m = .error (addressFault (effectiveAddress s i m))) ∧
    (s.accessible (slotAddress s i) → s.accessible (effectiveAddress s i m) →
      ∃ mem, resolve s s.mem i m = .ok (effectiveAddress s i m, mem) ∧ s.mem.onlyGrows mem (s.reach i m)) := by
  rw [resolve_start]
  refine ⟨fun hslot => ?_, fun hslot haddress => ?_, fun hslot haddress => ?_⟩
  · rw [if_neg (fun h => hslot h.1), resolveFault, if_neg hslot]
  · rw [if_neg (fun h => haddress h.2), resolveFault, if_pos hslot]
  · rw [if_pos ⟨hslot, haddress⟩]
    exact ⟨_, rfl, Memory.onlyGrows_growTo _ _⟩

/-- Settles O7, by the mode, which says what the effective address is. -/
theorem resolveGivesEffectiveAddress : Obligations.ResolveGivesEffectiveAddress := by
  unfold Obligations.ResolveGivesEffectiveAddress
  intro s i m _ _
  cases m with
  | positional => exact ⟨rfl, resolve_answers s i .positional⟩
  | immediate => exact ⟨rfl, resolve_answers s i .immediate⟩
  | relative => exact ⟨rfl, resolve_answers s i .relative⟩

end Sys2Proof.Machine
end

section
/-! PROOFS. The text of words (60_exceptions.md R100, R102) and of images (70_reset_and_hazards.md R112). -/

namespace Sys2Proof.Machine

/-! `Dec`. -/

/-- No magnitude of a word has more digits than `decNat` writes. -/
theorem Word.natAbs_lt (v : Word) : v.toInt.natAbs < 10 ^ 20 := by
  have hrange := Word.toInt_range v
  simp only [Word.minValue, Word.maxValue] at hrange
  omega

/-- The canonical text of a word is its sign, and the canonical digits of its magnitude. -/
theorem dec_spec (v : Word) :
    ∃ ds, dec v = (if v.toInt < 0 then '-' :: ds else ds) ∧ ds ≠ [] ∧ allDigits ds ∧
      digitsValue 0 ds = v.toInt.natAbs ∧ (ds.head? = some '0' → v.toInt.natAbs = 0 ∧ ds = ['0']) := by
  obtain ⟨ds, hds, hne, hdigits, hvalue, hzero⟩ := decDigits_spec 20 v.toInt.natAbs [] (Word.natAbs_lt v) (by decide)
  rw [List.append_nil] at hds
  refine ⟨ds, ?_, hne, hdigits, by rw [hvalue, Nat.zero_mul, Nat.zero_add], hzero⟩
  rw [dec, decNat, hds]

/-- Settles O41: the digits that `decDigits` writes are canonical, and `Dec` puts the sign before them. -/
theorem decIsCanonicalDecimal : Obligations.DecIsCanonicalDecimal := by
  unfold Obligations.DecIsCanonicalDecimal
  intro v
  obtain ⟨ds, hdec, hne, hdigits, hvalue, hzero⟩ := dec_spec v
  refine ⟨ds, hne, hdigits, hdec, fun hhead => ?_, hvalue⟩
  obtain ⟨habs, hds⟩ := hzero hhead
  exact ⟨Int.natAbs_eq_zero.mp habs, hds⟩

/-! `ParseInt`. -/

theorem allDigits_cons {ch : Char} {ds : List Char} :
    allDigits (ch :: ds) ↔ (48 ≤ ch.toNat ∧ ch.toNat ≤ 57) ∧ allDigits ds := List.forall_mem_cons

/-- The text is the sign and then one digit or more, and `n` is the integer they stand for (R100). -/
def signedDecimal (msg : Message) (n : Int) : Prop :=
  ∃ sign ds : List Char, msg = sign ++ ds ∧ (sign = [] ∨ sign = ['+'] ∨ sign = ['-']) ∧ ds ≠ [] ∧ allDigits ds ∧
    n = (if sign = ['-'] then -1 else 1) * (digitsValue 0 ds : Int)

theorem parseSigned_sound {msg : Message} {n : Int} (h : parseSigned msg = some n) : signedDecimal msg n := by
  cases msg with
  | nil => cases h
  | cons ch rest =>
    rw [parseSigned] at h
    split at h
    · next hminus =>
      obtain ⟨k, hk, rfl⟩ := Option.map_eq_some_iff.mp h
      obtain ⟨hne, hdigits, rfl⟩ := parseNat_eq_some.mp hk
      exact ⟨['-'], rest, hminus ▸ rfl, .inr (.inr rfl), hne, hdigits, by simp⟩
    · split at h
      · next hplus =>
        obtain ⟨k, hk, rfl⟩ := Option.map_eq_some_iff.mp h
        obtain ⟨hne, hdigits, rfl⟩ := parseNat_eq_some.mp hk
        exact ⟨['+'], rest, hplus ▸ rfl, .inr (.inl rfl), hne, hdigits, by simp⟩
      · obtain ⟨k, hk, rfl⟩ := Option.map_eq_some_iff.mp h
        obtain ⟨hne, hdigits, rfl⟩ := parseNat_eq_some.mp hk
        exact ⟨[], ch :: rest, rfl, .inl rfl, hne, hdigits, by simp⟩

/-- A digit is no sign. -/
theorem digit_ne_sign {ch : Char} (h : 48 ≤ ch.toNat ∧ ch.toNat ≤ 57) : ch ≠ '-' ∧ ch ≠ '+' := by
  refine ⟨?_, ?_⟩
  · rintro rfl; exact absurd h (by decide)
  · rintro rfl; exact absurd h (by decide)

theorem parseSigned_complete {msg : Message} {n : Int} (h : signedDecimal msg n) : parseSigned msg = some n := by
  obtain ⟨sign, ds, rfl, hsign, hne, hdigits, rfl⟩ := h
  have hnat : parseNat ds = some (digitsValue 0 ds) := parseNat_eq_some.mpr ⟨hne, hdigits, rfl⟩
  obtain rfl | rfl | rfl := hsign
  · cases ds with
    | nil => exact absurd rfl hne
    | cons ch rest =>
      obtain ⟨hminus, hplus⟩ := digit_ne_sign (allDigits_cons.mp hdigits).1
      simp [parseSigned, hminus, hplus, hnat]
  · simp [parseSigned, hnat]
  · simp [parseSigned, hnat]

theorem parseInt?_eq_some {msg : Message} {v : Word} : parseInt? msg = some v ↔ signedDecimal msg v.toInt := by
  rw [parseInt?]
  constructor
  · intro h
    split at h
    · next n hn => rw [wordOfInt?_eq_some.mp h]; exact parseSigned_sound hn
    · cases h
  · intro h
    rw [parseSigned_complete h]
    exact wordOfInt?_toInt v

/-- Settles O42: the grammar of `parseSigned`, and the range check, which answers the word of its integer. -/
theorem parseIntAcceptsExactlySignedDecimals : Obligations.ParseIntAcceptsExactlySignedDecimals := by
  unfold Obligations.ParseIntAcceptsExactlySignedDecimals
  exact fun msg v => parseInt?_eq_some

/-- Settles O40: the text of a word is a sign and digits, whose integer is the word. -/
theorem parseIntOfDec : Obligations.ParseIntOfDec := by
  unfold Obligations.ParseIntOfDec
  intro v
  obtain ⟨ds, hdec, hne, hdigits, hvalue, -⟩ := dec_spec v
  rw [parseInt?_eq_some, hdec]
  by_cases hneg : v.toInt < 0
  · refine ⟨['-'], ds, if_pos hneg, .inr (.inr rfl), hne, hdigits, ?_⟩
    rw [if_pos rfl, hvalue]; omega
  · refine ⟨[], ds, if_neg hneg, .inl rfl, hne, hdigits, ?_⟩
    rw [if_neg (List.cons_ne_nil _ _).symm, hvalue]; omega

/-! `LoadImage`. -/

/-- A character that `LoadImage` reads as part of a word: no comma and no blank. -/
def isWordChar (ch : Char) : Prop := ch ≠ ',' ∧ isTrailingBlank ch = false

theorem isWordChar_of_digit {ch : Char} (h : 48 ≤ ch.toNat ∧ ch.toNat ≤ 57) : isWordChar ch := by
  refine ⟨?_, ?_⟩
  · rintro rfl; exact absurd h (by decide)
  · rw [Bool.eq_false_iff]
    intro hblank
    simp only [isTrailingBlank, Bool.or_eq_true, beq_iff_eq] at hblank
    obtain ((rfl | rfl) | rfl) | rfl := hblank <;> exact absurd h (by decide)

theorem isWordChar_of_mem_dec {v : Word} {ch : Char} (h : ch ∈ dec v) : isWordChar ch := by
  obtain ⟨ds, hdec, -, hdigits, -⟩ := dec_spec v
  rw [hdec] at h
  split at h
  · obtain rfl | h := List.mem_cons.mp h
    · exact ⟨by decide, by decide⟩
    · exact isWordChar_of_digit (hdigits ch h)
  · exact isWordChar_of_digit (hdigits ch h)

theorem trimEnd_blanks {blanks : Message} (h : ∀ ch ∈ blanks, isTrailingBlank ch = true) : trimEnd blanks = [] := by
  induction blanks with
  | nil => rfl
  | cons ch rest ih =>
    obtain ⟨hch, hrest⟩ := List.forall_mem_cons.mp h
    simp [trimEnd, ih hrest, hch]

/-- Trimming a text without blanks, and blanks after it, leaves the text (R112, step 1). -/
theorem trimEnd_append_blanks {text blanks : Message} (ht : ∀ ch ∈ text, isTrailingBlank ch = false)
    (hb : ∀ ch ∈ blanks, isTrailingBlank ch = true) : trimEnd (text ++ blanks) = text := by
  induction text with
  | nil => exact trimEnd_blanks hb
  | cons ch rest ih =>
    obtain ⟨hch, hrest⟩ := List.forall_mem_cons.mp ht
    rw [List.cons_append, trimEnd, ih hrest]
    cases rest with
    | nil => simp [hch]
    | cons r rs => rfl

theorem splitCommas_of_no_comma {piece : Message} (h : ∀ ch ∈ piece, ch ≠ ',') : splitCommas piece = [piece] := by
  induction piece with
  | nil => rfl
  | cons ch rest ih =>
    obtain ⟨hch, hrest⟩ := List.forall_mem_cons.mp h
    rw [splitCommas, if_neg hch, ih hrest]

theorem splitCommas_append_comma {piece : Message} (h : ∀ ch ∈ piece, ch ≠ ',') (text : Message) :
    splitCommas (piece ++ ',' :: text) = piece :: splitCommas text := by
  induction piece with
  | nil => rw [List.nil_append, splitCommas, if_pos rfl]
  | cons ch rest ih =>
    obtain ⟨hch, hrest⟩ := List.forall_mem_cons.mp h
    rw [List.cons_append, splitCommas, if_neg hch, ih hrest]

/-- The text of a nonempty list of words: their canonical texts, a comma between every two. -/
def imageText (w : Word) (ws : List Word) : Message := List.intercalate [','] ((w :: ws).map dec)

theorem imageText_nil (w : Word) : imageText w [] = dec w := List.intercalate_singleton

theorem imageText_cons (w v : Word) (ws : List Word) : imageText w (v :: ws) = dec w ++ ',' :: imageText v ws := by
  simp [imageText, List.intercalate_cons_cons]

theorem isTrailingBlank_of_mem_imageText {w : Word} {ws : List Word} :
    ∀ ch ∈ imageText w ws, isTrailingBlank ch = false := by
  induction ws generalizing w with
  | nil => intro ch h; rw [imageText_nil] at h; exact (isWordChar_of_mem_dec h).2
  | cons v ws ih =>
    intro ch h
    rw [imageText_cons] at h
    obtain h | h := List.mem_append.mp h
    · exact (isWordChar_of_mem_dec h).2
    · obtain rfl | h := List.mem_cons.mp h
      · decide
      · exact ih ch h

theorem splitCommas_imageText (w : Word) (ws : List Word) : splitCommas (imageText w ws) = (w :: ws).map dec := by
  have hcomma : ∀ v : Word, ∀ ch ∈ dec v, ch ≠ ',' := fun v ch h => (isWordChar_of_mem_dec h).1
  induction ws generalizing w with
  | nil => rw [imageText_nil, splitCommas_of_no_comma (hcomma w)]; rfl
  | cons v ws ih => rw [imageText_cons, splitCommas_append_comma (hcomma w), ih]; rfl

theorem parsePieces_map_dec (ws : List Word) : parsePieces (ws.map dec) = some ws := by
  induction ws with
  | nil => rfl
  | cons w ws ih =>
    have hw : parseInt? (dec w) = some w := parseIntOfDec w
    rw [List.map_cons, parsePieces, hw, ih]

/-- Settles O3: trimming takes the blanks and nothing else, the commas are those between the words, and each piece is the text of
its word. -/
theorem loadImageReadsPrintedWords : Obligations.LoadImageReadsPrintedWords := by
  unfold Obligations.LoadImageReadsPrintedWords
  intro w ws blanks hblanks
  show loadImage (imageText w ws ++ blanks) = _
  rw [loadImage, trimEnd_append_blanks isTrailingBlank_of_mem_imageText hblanks, splitCommas_imageText,
    parsePieces_map_dec]

end Sys2Proof.Machine
end

section
/-! PROOFS. The host's ports, spawn, and several machines (10_state.md R26 to R30, 60_exceptions.md R96, R103, R106). -/

namespace Sys2Proof.Machine

/-! Spawn. -/

theorem Memory.read_ofWords {ws : List Word} {k : Nat} {w : Word} (h : ws[k]? = some w) : (Memory.ofWords ws).read k = w := by
  obtain ⟨hk, rfl⟩ := List.getElem?_eq_some_iff.mp h
  rw [Memory.ofWords, Memory.read_writeWords, dif_pos ⟨Nat.zero_le k, by omega⟩]
  rfl

/-- Settles O2: the image is loaded from address 0 on, and every other field has the value of R111. -/
theorem spawnLeavesResetValues : Obligations.SpawnLeavesResetValues := by
  unfold Obligations.SpawnLeavesResetValues
  refine ⟨fun c image initial => ⟨fun h => by rw [spawn, h], fun words h => by rw [spawn, h]⟩, fun c words initial => ?_⟩
  have hlen : (spawnWords c words initial).mem.len = words.length := Memory.ofWords_len words
  refine ⟨fun k w h => Memory.read_ofWords h, fun k hk => Memory.read_of_len_le (hlen ▸ hk), hlen, rfl, rfl, rfl, rfl, rfl, rfl,
    rfl, rfl, rfl, ?_, ?_, rfl⟩
  · rintro rfl; rfl
  · rintro v rfl; rfl

/-- Settles O52: the word stands at address 0, where a machine at reset fetches, and the two decoders are one. -/
theorem placedWordRunsNext : Obligations.PlacedWordRunsNext := by
  unfold Obligations.PlacedWordRunsNext
  intro nbits w i h
  have hread : (State.reset.withFetchWord nbits w).mem.read 0 = BitVec.ofNat 64 (w % 2 ^ nbits) :=
    (Memory.read_writeWords _ _ 0 0).trans (dif_pos ⟨Nat.le_refl 0, Nat.succ_pos _⟩)
  have hmax : (0 : Int) ≤ addrMax := by decide
  refine stepRunsDecodedInstruction _ i rfl ⟨Int.le_refl 0, hmax, .inr rfl⟩ ?_
  show decode Config.standard ((State.reset.withFetchWord nbits w).mem.read 0) = .ok i
  rw [hread]
  rw [decodeTableWord] at h
  split at h
  · next j hj => cases h; exact hj
  · cases h

/-! The readout. -/

theorem Memory.toWords_length (m : Memory) : m.toWords.length = m.len := by
  rw [Memory.toWords, List.length_map, List.length_range]

theorem Memory.toWords_getElem? {m : Memory} {k : Nat} (h : k < m.len) : m.toWords[k]? = some (m.read k) := by
  rw [Memory.toWords, List.getElem?_map, List.getElem?_range h, Option.map_some]

/-- Settles O48, by the status: a graceful end answers the whole tape. -/
theorem readoutOnlyAfterGracefulEnd : Obligations.ReadoutOnlyAfterGracefulEnd := by
  unfold Obligations.ReadoutOnlyAfterGracefulEnd
  intro s
  refine ⟨fun hs => ⟨s.mem.toWords, ?_, s.mem.toWords_length, fun k hk => Memory.toWords_getElem? hk⟩, fun hs => ?_,
    fun hs => ?_⟩
  · obtain hs | hs := hs
    · rw [hostMove, readoutAnswer, hs]
    · rw [hostMove, readoutAnswer, hs]
  · rw [hostMove, readoutAnswer, hs]
  · rw [hostMove, readoutAnswer_running hs]

/-- Settles O50, by the status: the outputs always, the tape after a graceful end, the record after a fault. -/
theorem runDeliversAtItsEnd : Obligations.RunDeliversAtItsEnd := by
  unfold Obligations.RunDeliversAtItsEnd
  intro taken s
  have htape : ∃ words, some (s.mem.len, s.mem.toWords) = some (s.mem.len, words) ∧ words.length = s.mem.len ∧
      ∀ k, k < s.mem.len → words[k]? = some (s.mem.read k) :=
    ⟨_, rfl, s.mem.toWords_length, fun k hk => Memory.toWords_getElem? hk⟩
  rw [delivered]
  cases s.status with
  | running => exact ⟨fun _ => rfl, fun h => absurd rfl h⟩
  | halted => exact ⟨Status.noConfusion, fun _ => ⟨_, rfl, rfl, rfl, Status.noConfusion, fun _ => ⟨rfl, htape⟩⟩⟩
  | inputClosed => exact ⟨Status.noConfusion, fun _ => ⟨_, rfl, rfl, rfl, Status.noConfusion, fun _ => ⟨rfl, htape⟩⟩⟩
  | faulted => exact ⟨Status.noConfusion, fun _ => ⟨_, rfl, rfl, rfl, fun _ => ⟨rfl, rfl⟩, fun h => absurd rfl h⟩⟩

/-! The channels. -/

/-- Settles O49: the clauses are the branches of a push and of a pop, and a close and a drop set one flag. -/
theorem pushAndPopFollowTheFifo : Obligations.PushAndPopFollowTheFifo := by
  unfold Obligations.PushAndPopFollowTheFifo
  intro s msg
  refine ⟨fun hc hgone => ?ended, fun hc hgone hroom => ?room, fun d hc hgone hdepth hfull => ?full,
    fun m rest hgone hq => ?head, fun hgone hq hc => ?endOfOutput, fun hgone hq hc => ?wait, rfl, rfl⟩
  case ended => simp [hostMove, hostPush, hc, hgone]
  case room => simp [hostMove, hostPush, hc, hgone, isFull_eq_false.mpr hroom]
  case full => simp [hostMove, hostPush, hc, hgone, isFull, hdepth, hfull]
  case head => simp [hostMove, hostPop, hgone, hq]
  case endOfOutput => simp [hostMove, hostPop, hgone, hq, hc]
  case wait => simp [hostMove, hostPop, hgone, hq, hc]

/-! Several machines. -/

theorem System.getElem?_update_same {f : State → State} {k : Nat} {y : System} {s : State} (h : y[k]? = some s) :
    (System.update f k y)[k]? = some (f s) := by
  induction y generalizing k with
  | nil => cases h
  | cons r rest ih =>
    cases k with
    | zero => cases h; rfl
    | succ k => exact ih h

theorem System.getElem?_update_other {f : State → State} {k j : Nat} (y : System) (h : j ≠ k) :
    (System.update f k y)[j]? = y[j]? := by
  induction y generalizing k j with
  | nil => cases k <;> rfl
  | cons r rest ih =>
    cases k with
    | zero =>
      cases j with
      | zero => exact absurd rfl h
      | succ j => rfl
    | succ k =>
      cases j with
      | zero => rfl
      | succ j => exact ih (fun he => h (congrArg (· + 1) he))

/-- Settles O51: a move changes one place of the list, and a spawn adds one at its end. -/
theorem instancesAreIndependent : Obligations.InstancesAreIndependent := by
  unfold Obligations.InstancesAreIndependent
  refine ⟨fun y k j v h => System.getElem?_update_other y h, fun y k v s h => System.getElem?_update_same h,
    fun y c image initial j s h => ?_⟩
  rw [System.event]
  split
  · obtain ⟨hj, -⟩ := List.getElem?_eq_some_iff.mp h
    rw [List.getElem?_append_left hj, h]
  · exact h

end Sys2Proof.Machine
end
